-- ==== Sys2Proof/Word.lean ====
section
/-! DEFINITION. The word types of the machine and nothing more: every value is an unsigned bit vector of the width
the spec gives it (00_scope.md R8, R9; 10_state.md R21, R24, R25). -/

namespace Sys2Proof

/-- A memory cell, a general register, a timer (R21, R26, R50). -/
abbrev Byte := BitVec 8

/-- The index register, the program counter, a stack entry, an opcode word (R24, R25, R28, R70). -/
abbrev Word := BitVec 16

/-- One of the four nibbles of an opcode (R9). -/
abbrev Nibble := BitVec 4

/-- A 12-bit literal `nnn` (R9). -/
abbrev Addr := BitVec 12

/-- The index of a general register, 0..15 (R21: always in range by construction). -/
abbrev Reg := Fin 16

end Sys2Proof
end

