-- ==== Sys2Proof/Config.lean ====
section
/-! DEFINITION. The fixed parameters of 00_scope.md R6, the default of the open parameter FONT (R7 (a), 20_memory.md
R62) and the one free value of the machine, the random byte (R7 (b), 43_alu.md R151). -/

namespace Sys2Proof.Config

/-- `MEM_SIZE`: bytes of memory (R6, R50). -/
abbrev memSize : Nat := 4096

/-- `FONT_BASE`: the first byte of the font (R6). -/
abbrev fontBase : Nat := 0x000

/-- `FONT_LEN`: bytes of font (R6). -/
abbrev fontLen : Nat := 80

/-- `GLYPH_BYTES`: bytes a glyph, the multiplier of Fx29 (R6, R162). -/
abbrev glyphBytes : Nat := 5

/-- `PROG_BASE`: where the image goes and the reset value of PC (R6). -/
abbrev progBase : Nat := 0x200

/-- `MAX_IMAGE`: the largest loadable image (R6, R203). -/
abbrev maxImage : Nat := 3584

/-- `INSTR_BYTES`: bytes an instruction (R6, R70). -/
abbrev instrBytes : Nat := 2

/-- What a byte of memory that nothing has written reads as. DESIGN CHOICE (unsafe): the source gives no value and the
spec decides 0x00 (10_state.md R38, decision D13); log 1. -/
abbrev unlistedByte : Byte := 0x00

/-- The random byte a Cxkk takes, by the number of bytes taken before it. A free value: no body, so a statement holds
for every byte (43_alu.md R151, 47_host_interface.md R209, decision D17; log 3). -/
opaque freeByte : Nat → Byte

/-- The default of the open parameter FONT, glyphs 0 to F, five bytes each. PRESUMED (unsafe for claims about glyph
pixels only): 20_memory.md R62 gives this table from general knowledge and no rule depends on it; log 5. -/
def defaultFont : Vector Byte fontLen :=
  ⟨#[0xF0, 0x90, 0x90, 0x90, 0xF0,  0x20, 0x60, 0x20, 0x20, 0x70,
     0xF0, 0x10, 0xF0, 0x80, 0xF0,  0xF0, 0x10, 0xF0, 0x10, 0xF0,
     0x90, 0x90, 0xF0, 0x10, 0x10,  0xF0, 0x80, 0xF0, 0x10, 0xF0,
     0xF0, 0x80, 0xF0, 0x90, 0xF0,  0xF0, 0x10, 0x20, 0x40, 0x40,
     0xF0, 0x90, 0xF0, 0x90, 0xF0,  0xF0, 0x90, 0xF0, 0x10, 0xF0,
     0xF0, 0x90, 0xF0, 0x90, 0x90,  0xE0, 0x90, 0xE0, 0x90, 0xE0,
     0xF0, 0x80, 0x80, 0x80, 0xF0,  0xE0, 0x90, 0x90, 0x90, 0xE0,
     0xF0, 0x80, 0xF0, 0x80, 0xF0,  0xF0, 0x80, 0xF0, 0x80, 0x80], rfl⟩

end Sys2Proof.Config
end

