-- ==== Sys2Proof/Syntax.lean ====
section
/-! DEFINITION. The 34 instructions, one constructor for each row of spec/opcode_table.json in its order
(30_encoding.md R73). An operand has the type of its field (R72), so a register index is always in range and a literal
always fits. The pattern of the source stands in front of each docstring; the patterns are the normative names (R79). -/

namespace Sys2Proof

/-- One instruction of the machine with its operands (R73). -/
inductive Instr where
  /-- 00E0 `CLS` (R175). -/
  | cls
  /-- 00EE `RET` (R120). -/
  | ret
  /-- 1nnn `JP nnn` (R121). -/
  | jp (nnn : Addr)
  /-- 2nnn `CALL nnn` (R122). -/
  | call (nnn : Addr)
  /-- 3xkk `SE Vx, kk` (R130). -/
  | seVxKk (x : Reg) (kk : Byte)
  /-- 4xkk `SNE Vx, kk` (R131). -/
  | sneVxKk (x : Reg) (kk : Byte)
  /-- 5xy0 `SE Vx, Vy` (R132). -/
  | seVxVy (x y : Reg)
  /-- 6xkk `LD Vx, kk` (R140). -/
  | ldVxKk (x : Reg) (kk : Byte)
  /-- 7xkk `ADD Vx, kk` (R141). -/
  | addVxKk (x : Reg) (kk : Byte)
  /-- 8xy0 `LD Vx, Vy` (R142). -/
  | ldVxVy (x y : Reg)
  /-- 8xy1 `OR Vx, Vy` (R143). -/
  | orVxVy (x y : Reg)
  /-- 8xy2 `AND Vx, Vy` (R144). -/
  | andVxVy (x y : Reg)
  /-- 8xy3 `XOR Vx, Vy` (R145). -/
  | xorVxVy (x y : Reg)
  /-- 8xy4 `ADD Vx, Vy` (R146). -/
  | addVxVy (x y : Reg)
  /-- 8xy5 `SUB Vx, Vy` (R147). -/
  | subVxVy (x y : Reg)
  /-- 8xy6 `SHR Vx {, Vy}`: `y` is decoded and not used (R72, R148). -/
  | shrVxVy (x y : Reg)
  /-- 8xy7 `SUBN Vx, Vy` (R149). -/
  | subnVxVy (x y : Reg)
  /-- 8xyE `SHL Vx {, Vy}`: `y` is decoded and not used (R72, R150). -/
  | shlVxVy (x y : Reg)
  /-- 9xy0 `SNE Vx, Vy` (R133). -/
  | sneVxVy (x y : Reg)
  /-- Annn `LD I, nnn` (R160). -/
  | ldINnn (nnn : Addr)
  /-- Bnnn `JP V0, nnn` (R123). -/
  | jpV0Nnn (nnn : Addr)
  /-- Cxkk `RND Vx, kk` (R151). -/
  | rndVxKk (x : Reg) (kk : Byte)
  /-- Dxyn `DRW Vx, Vy, n` (R176). -/
  | drwVxVyN (x y : Reg) (n : Nibble)
  /-- Ex9E `SKP Vx` (R185). -/
  | skpVx (x : Reg)
  /-- ExA1 `SKNP Vx` (R186). -/
  | sknpVx (x : Reg)
  /-- Fx07 `LD Vx, DT` (R188). -/
  | ldVxDt (x : Reg)
  /-- Fx0A `LD Vx, K` (R187). -/
  | ldVxK (x : Reg)
  /-- Fx15 `LD DT, Vx` (R189). -/
  | ldDtVx (x : Reg)
  /-- Fx18 `LD ST, Vx` (R190). -/
  | ldStVx (x : Reg)
  /-- Fx1E `ADD I, Vx` (R161). -/
  | addIVx (x : Reg)
  /-- Fx29 `LD F, Vx` (R162). -/
  | ldFVx (x : Reg)
  /-- Fx33 `LD B, Vx` (R163). -/
  | ldBVx (x : Reg)
  /-- Fx55 `LD [I], Vx` (R164). -/
  | ldMemVx (x : Reg)
  /-- Fx65 `LD Vx, [I]` (R165). -/
  | ldVxMem (x : Reg)
  deriving DecidableEq, Repr

end Sys2Proof
end

