-- ==== Sys2Proof/WellFormed.lean ====
section
/-! DEFINITION. What is well formed: a word of the opcode map (30_encoding.md R73, R76), a row of that map (R81), a
program image (47_host_interface.md R203). An `Instr` cannot be out of range, since its operands have the types of
their fields (R72); what `Instr.wellFormed` adds is that its row is a sound row of the map. -/

namespace Sys2Proof

/-- A row of the opcode map: a word `op` selects it when `op &&& mask = bits` (R73). -/
structure OpRow where
  mask : Word
  bits : Word
  deriving DecidableEq, Repr

/-- The row matches the word (R73: `(op & mask) = match`). -/
def OpRow.selects (r : OpRow) (op : Word) : Bool := op &&& r.mask == r.bits

/-- A row fixes no bit outside its mask (R81). -/
def OpRow.sound (r : OpRow) : Bool := r.bits &&& r.mask == r.bits

/-- Rows 1 to 9 of R73. -/
def opcodeRowsLoads : List OpRow :=
  [⟨0xFFFF, 0x00E0⟩ /- 00E0 -/,
   ⟨0xFFFF, 0x00EE⟩ /- 00EE -/,
   ⟨0xF000, 0x1000⟩ /- 1nnn -/,
   ⟨0xF000, 0x2000⟩ /- 2nnn -/,
   ⟨0xF000, 0x3000⟩ /- 3xkk -/,
   ⟨0xF000, 0x4000⟩ /- 4xkk -/,
   ⟨0xF00F, 0x5000⟩ /- 5xy0 -/,
   ⟨0xF000, 0x6000⟩ /- 6xkk -/,
   ⟨0xF000, 0x7000⟩ /- 7xkk -/]

/-- Rows 10 to 19 of R73. -/
def opcodeRowsAlu : List OpRow :=
  [⟨0xF00F, 0x8000⟩ /- 8xy0 -/,
   ⟨0xF00F, 0x8001⟩ /- 8xy1 -/,
   ⟨0xF00F, 0x8002⟩ /- 8xy2 -/,
   ⟨0xF00F, 0x8003⟩ /- 8xy3 -/,
   ⟨0xF00F, 0x8004⟩ /- 8xy4 -/,
   ⟨0xF00F, 0x8005⟩ /- 8xy5 -/,
   ⟨0xF00F, 0x8006⟩ /- 8xy6 -/,
   ⟨0xF00F, 0x8007⟩ /- 8xy7 -/,
   ⟨0xF00F, 0x800E⟩ /- 8xyE -/,
   ⟨0xF00F, 0x9000⟩ /- 9xy0 -/]

/-- Rows 20 to 25 of R73. -/
def opcodeRowsIndex : List OpRow :=
  [⟨0xF000, 0xA000⟩ /- Annn -/,
   ⟨0xF000, 0xB000⟩ /- Bnnn -/,
   ⟨0xF000, 0xC000⟩ /- Cxkk -/,
   ⟨0xF000, 0xD000⟩ /- Dxyn -/,
   ⟨0xF0FF, 0xE09E⟩ /- Ex9E -/,
   ⟨0xF0FF, 0xE0A1⟩ /- ExA1 -/]

/-- Rows 26 to 34 of R73. -/
def opcodeRowsMisc : List OpRow :=
  [⟨0xF0FF, 0xF007⟩ /- Fx07 -/,
   ⟨0xF0FF, 0xF00A⟩ /- Fx0A -/,
   ⟨0xF0FF, 0xF015⟩ /- Fx15 -/,
   ⟨0xF0FF, 0xF018⟩ /- Fx18 -/,
   ⟨0xF0FF, 0xF01E⟩ /- Fx1E -/,
   ⟨0xF0FF, 0xF029⟩ /- Fx29 -/,
   ⟨0xF0FF, 0xF033⟩ /- Fx33 -/,
   ⟨0xF0FF, 0xF055⟩ /- Fx55 -/,
   ⟨0xF0FF, 0xF065⟩ /- Fx65 -/]

/-- The complete map of R73, 34 rows in the spec's order. -/
def opcodeTable : List OpRow := opcodeRowsLoads ++ opcodeRowsAlu ++ opcodeRowsIndex ++ opcodeRowsMisc

/-- A word some row selects; every other word is illegal (R76). -/
def legalWord (op : Word) : Bool := opcodeTable.any (·.selects op)

/-- An image LoadProgram accepts (R203: at most 3584 bytes, the empty image among them). -/
def imageFits (image : List Byte) : Bool := image.length ≤ Config.maxImage

/-- The row of the opcode map an instruction belongs to (R73). -/
def Instr.row (i : Instr) : OpRow :=
  match i with
  | .cls => ⟨0xFFFF, 0x00E0⟩
  | .ret => ⟨0xFFFF, 0x00EE⟩
  | .jp _ => ⟨0xF000, 0x1000⟩
  | .call _ => ⟨0xF000, 0x2000⟩
  | .seVxKk _ _ => ⟨0xF000, 0x3000⟩
  | .sneVxKk _ _ => ⟨0xF000, 0x4000⟩
  | .seVxVy _ _ => ⟨0xF00F, 0x5000⟩
  | .ldVxKk _ _ => ⟨0xF000, 0x6000⟩
  | .addVxKk _ _ => ⟨0xF000, 0x7000⟩
  | .ldVxVy _ _ => ⟨0xF00F, 0x8000⟩
  | .orVxVy _ _ => ⟨0xF00F, 0x8001⟩
  | .andVxVy _ _ => ⟨0xF00F, 0x8002⟩
  | .xorVxVy _ _ => ⟨0xF00F, 0x8003⟩
  | .addVxVy _ _ => ⟨0xF00F, 0x8004⟩
  | .subVxVy _ _ => ⟨0xF00F, 0x8005⟩
  | .shrVxVy _ _ => ⟨0xF00F, 0x8006⟩
  | .subnVxVy _ _ => ⟨0xF00F, 0x8007⟩
  | .shlVxVy _ _ => ⟨0xF00F, 0x800E⟩
  | .sneVxVy _ _ => ⟨0xF00F, 0x9000⟩
  | .ldINnn _ => ⟨0xF000, 0xA000⟩
  | .jpV0Nnn _ => ⟨0xF000, 0xB000⟩
  | .rndVxKk _ _ => ⟨0xF000, 0xC000⟩
  | .drwVxVyN _ _ _ => ⟨0xF000, 0xD000⟩
  | .skpVx _ => ⟨0xF0FF, 0xE09E⟩
  | .sknpVx _ => ⟨0xF0FF, 0xE0A1⟩
  | .ldVxDt _ => ⟨0xF0FF, 0xF007⟩
  | .ldVxK _ => ⟨0xF0FF, 0xF00A⟩
  | .ldDtVx _ => ⟨0xF0FF, 0xF015⟩
  | .ldStVx _ => ⟨0xF0FF, 0xF018⟩
  | .addIVx _ => ⟨0xF0FF, 0xF01E⟩
  | .ldFVx _ => ⟨0xF0FF, 0xF029⟩
  | .ldBVx _ => ⟨0xF0FF, 0xF033⟩
  | .ldMemVx _ => ⟨0xF0FF, 0xF055⟩
  | .ldVxMem _ => ⟨0xF0FF, 0xF065⟩

/-- The instruction's row is a sound row of the map. -/
def Instr.wellFormed (i : Instr) : Bool := i.row.sound && opcodeTable.contains i.row

end Sys2Proof
end

