-- ==== Sys2Proof/Decode.lean ====
section
/-! DEFINITION. Nibbles and words (00_scope.md R12), the decoder and the encoder (30_encoding.md R70 to R76, R82). The
decoder is a match over the four nibbles, as the source's is (R82); it is total and rejects by name. -/

namespace Sys2Proof

/-- `split(b)`: the high nibble, then the low one (R12). -/
def split (b : Byte) : Nibble × Nibble := (b.extractLsb' 4 4, b.extractLsb' 0 4)

/-- `merge(h, l)`: the byte `16*h + l` (R12). -/
def merge (h l : Nibble) : Byte := h ++ l

/-- `merge_u16(n0, n1, n2, n3)`: the word of four nibbles, the first the most significant (R12). -/
def mergeU16 (n0 n1 n2 n3 : Nibble) : Word := merge n0 n1 ++ merge n2 n3

/-- `op[15:8]`, the byte at the lower address (R53, R70). -/
def highByte (op : Word) : Byte := op.extractLsb' 8 8

/-- `op[7:0]`, the byte at the higher address (R53, R70). -/
def lowByte (op : Word) : Byte := op.extractLsb' 0 8

/-- `op = MemRead(a, 1) ‖ MemRead(a + 1, 1)` (R70). -/
def wordOfBytes (high low : Byte) : Word := high ++ low

/-- The literal `nnn = n1 ‖ n2 ‖ n3` (R9). -/
def literal12 (n1 n2 n3 : Nibble) : Addr := n1 ++ n2 ++ n3

/-- A nibble as a register index (R9, R21). -/
def regOf (n : Nibble) : Reg := n.toFin

/-- A register index as its nibble (R9). -/
def nibbleOf (r : Reg) : Nibble := BitVec.ofFin r

/-- The nine operations under `n0 = 8`, by the low nibble (R74). -/
def decodeAlu (x y : Reg) (n3 : Nibble) : Option Instr :=
  match n3 with
  | 0x0#4 => some (.ldVxVy x y)
  | 0x1#4 => some (.orVxVy x y)
  | 0x2#4 => some (.andVxVy x y)
  | 0x3#4 => some (.xorVxVy x y)
  | 0x4#4 => some (.addVxVy x y)
  | 0x5#4 => some (.subVxVy x y)
  | 0x6#4 => some (.shrVxVy x y)
  | 0x7#4 => some (.subnVxVy x y)
  | 0xE#4 => some (.shlVxVy x y)
  | _ => none

/-- The nine operations under `n0 = F`, by the low byte (R73 rows 26 to 34). -/
def decodeMisc (x : Reg) (n2 n3 : Nibble) : Option Instr :=
  match n2, n3 with
  | 0x0#4, 0x7#4 => some (.ldVxDt x)
  | 0x0#4, 0xA#4 => some (.ldVxK x)
  | 0x1#4, 0x5#4 => some (.ldDtVx x)
  | 0x1#4, 0x8#4 => some (.ldStVx x)
  | 0x1#4, 0xE#4 => some (.addIVx x)
  | 0x2#4, 0x9#4 => some (.ldFVx x)
  | 0x3#4, 0x3#4 => some (.ldBVx x)
  | 0x5#4, 0x5#4 => some (.ldMemVx x)
  | 0x6#4, 0x5#4 => some (.ldVxMem x)
  | _, _ => none

/-- `Decode(n0, n1, n2, n3)`: the operation the four nibbles select, none for an illegal word (R73, R76, R82,
40_cycle.md R103). -/
def decodeNibbles (n0 n1 n2 n3 : Nibble) : Option Instr :=
  match n0 with
  | 0x0#4 =>
    match n1, n2, n3 with
    | 0x0#4, 0xE#4, 0x0#4 => some .cls
    | 0x0#4, 0xE#4, 0xE#4 => some .ret
    | _, _, _ => none
  | 0x1#4 => some (.jp (literal12 n1 n2 n3))
  | 0x2#4 => some (.call (literal12 n1 n2 n3))
  | 0x3#4 => some (.seVxKk (regOf n1) (merge n2 n3))
  | 0x4#4 => some (.sneVxKk (regOf n1) (merge n2 n3))
  | 0x5#4 => if n3 = 0x0#4 then some (.seVxVy (regOf n1) (regOf n2)) else none
  | 0x6#4 => some (.ldVxKk (regOf n1) (merge n2 n3))
  | 0x7#4 => some (.addVxKk (regOf n1) (merge n2 n3))
  | 0x8#4 => decodeAlu (regOf n1) (regOf n2) n3
  | 0x9#4 => if n3 = 0x0#4 then some (.sneVxVy (regOf n1) (regOf n2)) else none
  | 0xA#4 => some (.ldINnn (literal12 n1 n2 n3))
  | 0xB#4 => some (.jpV0Nnn (literal12 n1 n2 n3))
  | 0xC#4 => some (.rndVxKk (regOf n1) (merge n2 n3))
  | 0xD#4 => some (.drwVxVyN (regOf n1) (regOf n2) n3)
  | 0xE#4 =>
    match n2, n3 with
    | 0x9#4, 0xE#4 => some (.skpVx (regOf n1))
    | 0xA#4, 0x1#4 => some (.sknpVx (regOf n1))
    | _, _ => none
  | 0xF#4 => decodeMisc (regOf n1) n2 n3
  | _ => none

/-- Decode of the opcode word: its four nibbles, then `decodeNibbles` (R70, R82). -/
def decodeWord (op : Word) : Option Instr :=
  let high := split (highByte op)
  let low := split (lowByte op)
  decodeNibbles high.1 high.2 low.1 low.2

/-- What the decoder answers on a list of bytes: an instruction and the bytes after it, or a rejection by name. -/
inductive DecodeResult where
  /-- An instruction of two bytes, and the rest (R70). -/
  | decoded (i : Instr) (rest : List Byte)
  /-- The two bytes form an illegal word (R76). -/
  | illegalOpcode (op : Word)
  /-- Fewer than two bytes are left: no instruction has that length (R70). -/
  | truncated
  deriving DecidableEq, Repr

/-- Decode of the first instruction of a list of bytes in memory order, high byte first (R53, R70). -/
def decodeBytes (bytes : List Byte) : DecodeResult :=
  match bytes with
  | high :: low :: rest =>
    match decodeWord (wordOfBytes high low) with
    | some i => .decoded i rest
    | none => .illegalOpcode (wordOfBytes high low)
  | _ => .truncated

/-- The four nibbles of a format-E or XLL word: a fixed low byte (R71). -/
def nibblesXLL (n0 : Nibble) (x : Reg) (low : Byte) : Nibble × Nibble × Nibble × Nibble :=
  (n0, nibbleOf x, (split low).1, (split low).2)

/-- The four nibbles of a format-XKK word (R71). -/
def nibblesXKK (n0 : Nibble) (x : Reg) (kk : Byte) : Nibble × Nibble × Nibble × Nibble :=
  (n0, nibbleOf x, (split kk).1, (split kk).2)

/-- The four nibbles of a format-XYN word (R71). -/
def nibblesXYN (n0 : Nibble) (x y : Reg) (n3 : Nibble) : Nibble × Nibble × Nibble × Nibble :=
  (n0, nibbleOf x, nibbleOf y, n3)

/-- The four nibbles of a format-NNN word (R71). -/
def nibblesNNN (n0 : Nibble) (nnn : Addr) : Nibble × Nibble × Nibble × Nibble :=
  (n0, nnn.extractLsb' 8 4, nnn.extractLsb' 4 4, nnn.extractLsb' 0 4)

/-- The four nibbles of an instruction, from the patterns of R73 and the formats of R71. -/
def encodeNibbles (i : Instr) : Nibble × Nibble × Nibble × Nibble :=
  match i with
  | .cls => (0x0, 0x0, 0xE, 0x0)
  | .ret => (0x0, 0x0, 0xE, 0xE)
  | .jp nnn => nibblesNNN 0x1 nnn
  | .call nnn => nibblesNNN 0x2 nnn
  | .seVxKk x kk => nibblesXKK 0x3 x kk
  | .sneVxKk x kk => nibblesXKK 0x4 x kk
  | .seVxVy x y => nibblesXYN 0x5 x y 0x0
  | .ldVxKk x kk => nibblesXKK 0x6 x kk
  | .addVxKk x kk => nibblesXKK 0x7 x kk
  | .ldVxVy x y => nibblesXYN 0x8 x y 0x0
  | .orVxVy x y => nibblesXYN 0x8 x y 0x1
  | .andVxVy x y => nibblesXYN 0x8 x y 0x2
  | .xorVxVy x y => nibblesXYN 0x8 x y 0x3
  | .addVxVy x y => nibblesXYN 0x8 x y 0x4
  | .subVxVy x y => nibblesXYN 0x8 x y 0x5
  | .shrVxVy x y => nibblesXYN 0x8 x y 0x6
  | .subnVxVy x y => nibblesXYN 0x8 x y 0x7
  | .shlVxVy x y => nibblesXYN 0x8 x y 0xE
  | .sneVxVy x y => nibblesXYN 0x9 x y 0x0
  | .ldINnn nnn => nibblesNNN 0xA nnn
  | .jpV0Nnn nnn => nibblesNNN 0xB nnn
  | .rndVxKk x kk => nibblesXKK 0xC x kk
  | .drwVxVyN x y n => nibblesXYN 0xD x y n
  | .skpVx x => nibblesXLL 0xE x 0x9E
  | .sknpVx x => nibblesXLL 0xE x 0xA1
  | .ldVxDt x => nibblesXLL 0xF x 0x07
  | .ldVxK x => nibblesXLL 0xF x 0x0A
  | .ldDtVx x => nibblesXLL 0xF x 0x15
  | .ldStVx x => nibblesXLL 0xF x 0x18
  | .addIVx x => nibblesXLL 0xF x 0x1E
  | .ldFVx x => nibblesXLL 0xF x 0x29
  | .ldBVx x => nibblesXLL 0xF x 0x33
  | .ldMemVx x => nibblesXLL 0xF x 0x55
  | .ldVxMem x => nibblesXLL 0xF x 0x65

/-- The opcode word of an instruction (R70). -/
def encode (i : Instr) : Word :=
  let n := encodeNibbles i
  mergeU16 n.1 n.2.1 n.2.2.1 n.2.2.2

/-- The two bytes of an instruction in memory order (R53). -/
def encodeBytes (i : Instr) : List Byte := [highByte (encode i), lowByte (encode i)]

/-- The opcode word of a table row's bits: bit 0 is the least significant bit of the word, and the bits above `nbits`
are 0 (R81). -/
def tableWord (nbits w : Nat) : Word := BitVec.ofNat 16 (w % 2 ^ nbits)

/-- What the decoder reads from an instruction whose bits are `w` as spec/opcode_table.json numbers them, laid out as
memory holds them, high byte first (R53, R81). -/
def decodeTableWord (nbits w : Nat) : Option Instr :=
  match decodeBytes [highByte (tableWord nbits w), lowByte (tableWord nbits w)] with
  | .decoded i _ => some i
  | .illegalOpcode _ => none
  | .truncated => none

end Sys2Proof
end

