-- ==== Sys2Proof/Machine/State.lean ====
section
/-! DEFINITION. The state of the machine, plain data, every row of the table of 10_state.md R20 and the model's own
counter of random bytes; the fault records (60_exceptions.md R221), the refusals (47_host_interface.md R212) and the
state after reset (R38, R201, 70_reset_and_hazards.md R250). -/

namespace Sys2Proof.Machine

/-- The lifecycle states of the source (R35). Waiting for a key is not one of them: it is `running` with the wait flag. -/
inductive Phase where
  /-- Constructed, not initialized: the state after reset. -/
  | idle
  /-- Font loaded. -/
  | ready
  /-- Program loaded: cycles are admitted. -/
  | running
  deriving DecidableEq, Repr

/-- A fault record: the cause and its information (R221). It stands in the latch `State.fault`, written by the
operation `State.raise`, and it is the outcome `fault` of every action tried while the latch holds it (log 4). Each
stops the machine for good, which is safe: nothing after it can be proved to succeed. -/
inductive Fault where
  /-- Raised by LoadProgram for an image over 3584 bytes (R222). Safe: the source's own fatal condition. -/
  | imageTooLarge (length : Nat)
  /-- Raised by the decode stage for a word no row selects (R223). Safe: the source's own fatal condition. -/
  | illegalOpcode (op : Word) (pc : Word)
  /-- Raised by fetch, Dxyn, Fx33, Fx55 and Fx65 for an access above 0xFFF (R224). Safe: decision D2, log 8. -/
  | memOutOfRange (address : Nat)
  /-- Raised by 2nnn with SP = 16 (R225). Safe: decision D3, log 9. -/
  | stackOverflow
  /-- Raised by 00EE with SP = 0 (R225). Safe: decision D3, log 9. -/
  | stackUnderflow
  /-- Raised by Ex9E and ExA1 with V[x] > 15 (R226). Safe: decision D4, log 10. -/
  | keyIndexOutOfRange (value : Byte)
  deriving DecidableEq, Repr

/-- An action without a meaning in the state it is tried in (R212, decision D15, log 7). Each is safe: the machine makes
no transition. -/
inductive Refusal where
  /-- An instruction without a meaning: no arm of `exec` raises it, every instruction has its meaning. Safe. -/
  | notModelled (mnemonic : String)
  /-- Raised by a Cycle in phase Idle or Ready (R100, R204, R212). Safe. -/
  | cycleNotRunning
  /-- Raised by an Initialize in phase Ready or Running (R202, R212). Safe. -/
  | initializeNotIdle
  /-- Raised by a LoadProgram in phase Idle or Running (R203, R212). Safe. -/
  | loadNotReady
  /-- Raised by a KeyResolve with the wait flag false or outside Running (R206, R212). Safe. -/
  | keyResolveNotWaiting
  deriving DecidableEq, Repr

/-- The framebuffer: 32 rows of 64 booleans, `FB[row][col]` (R31). -/
abbrev Framebuffer := Vector (Vector Bool 64) 32

/-- The whole state of the core (R20), and `draws`, the model's own (log 3). -/
structure State where
  /-- Memory as (address, byte) pairs in the canonical form of `Memory.wf` (R50). -/
  mem : List Host.Cell
  /-- The general registers `V[0..15]`; `V[15]` is VF (R21, R23). -/
  v : Vector Byte 16
  /-- The index register (R24). -/
  i : Word
  /-- The program counter (R25). -/
  pc : Word
  /-- The delay timer (R26). -/
  dt : Byte
  /-- The sound timer (R27). -/
  st : Byte
  /-- The call stack (R28). -/
  stack : Vector Word 16
  /-- The number of live stack entries, 0..16 (R28, log 19). -/
  sp : Fin 17
  /-- The framebuffer (R31). -/
  fb : Framebuffer
  /-- The keyboard latch (R32). -/
  keys : Vector Bool 16
  /-- `waiting_for_keyboard` (R33). -/
  waiting : Bool
  /-- `keyboard_register` (R33, log 19). -/
  keyReg : Reg
  /-- The lifecycle phase (R35). -/
  phase : Phase
  /-- The fault latch (R36). -/
  fault : Option Fault
  /-- How many random bytes have been taken: the model's own field, the argument of `Config.freeByte` (log 3). -/
  draws : Nat
  deriving DecidableEq, Repr

/-- What a step or a host action answers. -/
abbrev StepOutcome := Host.Outcome State Fault Refusal

/-- The state after reset (R38, R201, R250): PC = 0x200, SP = 0, Idle, no fault; all else zero or false (decision D13,
logs 1 and 2; `draws`, log 3). -/
def State.reset : State where
  mem := []
  v := Vector.replicate 16 0
  i := 0
  pc := BitVec.ofNat 16 Config.progBase
  dt := 0
  st := 0
  stack := Vector.replicate 16 0
  sp := 0
  fb := Vector.replicate 32 (Vector.replicate 64 false)
  keys := Vector.replicate 16 false
  waiting := false
  keyReg := 0
  phase := .idle
  fault := none
  draws := 0

end Sys2Proof.Machine
end

