-- ==== Sys2Proof/Machine/Ops.lean ====
section
/-! DEFINITION. The named operations over the state: memory in its canonical form and its range check (20_memory.md R52,
R61), registers, the stack (10_state.md R29, R30), the program counter (40_cycle.md R104 to R106), RAISING A FAULT, the
one shared exception operation (R108, R220), fetch and the timer tick (R102, R107), and the admission of a cycle (R100,
R212). There is no return from a fault to write beside it: the spec has none (60_exceptions.md R229). -/

namespace Sys2Proof.Machine

/-! ### Memory as a canonical list of (address, byte) pairs -/

/-- The canonical form: addresses below 4096 and strictly rising, no entry equal to what an unlisted address reads as. -/
def Memory.wf (m : List Host.Cell) : Bool :=
  match m with
  | [] => true
  | c :: rest =>
    decide (c.1 < Config.memSize) && (c.2 != Config.unlistedByte) && rest.all (fun d => c.1 < d.1) && Memory.wf rest

/-- `mem[a]`: the listed byte, or what an unlisted address reads as (R50, log 1). -/
def Memory.read (m : List Host.Cell) (a : Nat) : Byte :=
  match m with
  | [] => Config.unlistedByte
  | c :: rest => if c.1 = a then c.2 else Memory.read rest a

/-- The list without the address. -/
def Memory.erase (m : List Host.Cell) (a : Nat) : List Host.Cell := m.filter (fun c => c.1 != a)

/-- The list with an entry put in front of the first higher address. -/
def Memory.insert (m : List Host.Cell) (a : Nat) (b : Byte) : List Host.Cell :=
  match m with
  | [] => [(a, b)]
  | c :: rest => if a < c.1 then (a, b) :: c :: rest else c :: Memory.insert rest a b

/-- `mem[a] <- b`, keeping the canonical form. -/
def Memory.write (m : List Host.Cell) (a : Nat) (b : Byte) : List Host.Cell :=
  if b = Config.unlistedByte then Memory.erase m a else Memory.insert (Memory.erase m a) a b

/-- The bytes at `base`, `base + 1`, ..., in ascending order (R61). -/
def Memory.readBytes (m : List Host.Cell) (base : Nat) (count : Nat) : List Byte :=
  match count with
  | 0 => []
  | k + 1 => Memory.read m base :: Memory.readBytes m (base + 1) k

/-- Bytes written at `base`, `base + 1`, ..., in ascending order (R61). -/
def Memory.writeBytes (m : List Host.Cell) (base : Nat) (bytes : List Byte) : List Host.Cell :=
  match bytes with
  | [] => m
  | b :: rest => Memory.writeBytes (Memory.write m base b) (base + 1) rest

/-- The check of the highest address, before anything changes: the lowest offending address is `max(base, 0x1000)`
(R52, R61, decision D2, log 8). Nothing is computed modulo anything. -/
def rangeFault (base count : Nat) : Option Fault :=
  if 0 < count ∧ 0xFFF < base + (count - 1) then some (.memOutOfRange (max base 0x1000)) else none

/-- The byte at an address (R50). -/
def State.byteAt (s : State) (a : Nat) : Byte := Memory.read s.mem a

/-- `count` reads from `base` upward, checked as one (R52, R61). `MemRead(a, 1)` is the case `count = 1`. -/
def State.loadBytes (s : State) (base count : Nat) : Except Fault (List Byte) :=
  match rangeFault base count with
  | some f => .error f
  | none => .ok (Memory.readBytes s.mem base count)

/-- Writes from `base` upward, checked as one (R52, R61). `MemWrite(a, 1, v)` is the case of one byte. -/
def State.storeBytes (s : State) (base : Nat) (bytes : List Byte) : Except Fault State :=
  match rangeFault base bytes.length with
  | some f => .error f
  | none => .ok { s with mem := Memory.writeBytes s.mem base bytes }

/-! ### Registers -/

/-- `V[x]` (R10, R21). -/
def State.readV (s : State) (x : Reg) : Byte := s.v[x.val]

/-- `V[x] <- b` (R10, R21): no register is hard-wired. -/
def State.writeV (s : State) (x : Reg) (b : Byte) : State := { s with v := s.v.set x.val b x.isLt }

/-- `I <- w` (R24). -/
def State.writeI (s : State) (w : Word) : State := { s with i := w }

/-! ### The program counter -/

/-- `PC <- (PC + 2) mod 2^16` (R104). -/
def State.advance (s : State) : State := { s with pc := s.pc + 2 }

/-- The skip advance: `PC + 4` when the condition holds, else `PC + 2`, mod 2^16 (R105). -/
def State.skipWhen (s : State) (cond : Bool) : State := { s with pc := if cond then s.pc + 4 else s.pc + 2 }

/-- `PC <- target` (R106). -/
def State.jumpTo (s : State) (target : Word) : State := { s with pc := target }

/-! ### Raising a fault -/

/-- `raise F`: every piece of state keeps its value and the latch takes the record (R11, R36, R108, R220, R228). A
precise fault: `s` is the state before the faulting action. DESIGN CHOICE (safe): the faulted machine is a next state,
and it is stopped from then on (log 4, log 18). -/
def State.raise (s : State) (f : Fault) : StepOutcome := .next { s with fault := some f }

/-- A checked operation followed by the rest of the instruction, or the fault the check raises (R108). -/
def State.orRaise {α : Type} (s : State) (r : Except Fault α) (k : α → State) : StepOutcome :=
  match r with
  | .error f => s.raise f
  | .ok a => .next (k a)

/-! ### The call stack -/

/-- `push(v)`: write at the pointer, then increment; StackOverflow when SP = 16 (R29, decision D3, log 9). -/
def State.push (s : State) (w : Word) : Except Fault State :=
  if h : s.sp.val < 16 then
    .ok { s with stack := s.stack.set s.sp.val w h, sp := ⟨s.sp.val + 1, Nat.succ_lt_succ h⟩ }
  else .error .stackOverflow

/-- `pop()`: decrement, then read; the cell keeps its value; StackUnderflow when SP = 0 (R30, decision D3, log 9). -/
def State.pop (s : State) : Except Fault (Word × State) :=
  if h : 0 < s.sp.val then
    .ok (s.stack[s.sp.val - 1]'(by have := s.sp.isLt; omega),
      { s with sp := ⟨s.sp.val - 1, Nat.lt_of_le_of_lt (Nat.sub_le _ _) s.sp.isLt⟩ })
  else .error .stackUnderflow

/-! ### The random byte -/

/-- `rand()`: the next free byte, and the state that has taken it (R151, R209, log 3). -/
def State.drawByte (s : State) : Byte × State := (Config.freeByte s.draws, { s with draws := s.draws + 1 })

/-! ### The framebuffer -/

/-- `FB[row][col]` (R31). -/
def pixelOf (fb : Framebuffer) (row : Fin 32) (col : Fin 64) : Bool := (fb[row.val])[col.val]

/-- `FB[row][col] <- not FB[row][col]` (R176: XOR with 1). -/
def flipPixel (fb : Framebuffer) (row : Fin 32) (col : Fin 64) : Framebuffer :=
  fb.set row.val ((fb[row.val]).set col.val (!pixelOf fb row col) col.isLt) row.isLt

/-- The framebuffer with every pixel false (R175). -/
def clearFramebuffer : Framebuffer := Vector.replicate 32 (Vector.replicate 64 false)

/-- `FB[row][col]` of the state (R31). -/
def State.pixel (s : State) (row : Fin 32) (col : Fin 64) : Bool := pixelOf s.fb row col

/-! ### The stages of a cycle -/

/-- One timer's tick: one less while it is not zero (R107). -/
def tickTimer (t : Byte) : Byte := if t = 0 then 0 else t - 1

/-- `TimerTick()` (R107). -/
def State.tick (s : State) : State := { s with dt := tickTimer s.dt, st := tickTimer s.st }

/-- Why a cycle is not admitted, if it is not: the latched fault, or a phase other than Running (R100, R204, R212,
R220; logs 4 and 7). -/
def State.cycleBar (s : State) : Option StepOutcome :=
  match s.fault with
  | some f => some (.fault f)
  | none => if s.phase = .running then none else some (.refused .cycleNotRunning)

/-- The word at `PC`, big-endian, or MemOutOfRange when PC > 0xFFE (R102, R53): the two reads are checked as one. -/
def State.fetchWord (s : State) : Except Fault Word :=
  match rangeFault s.pc.toNat Config.instrBytes with
  | some f => .error f
  | none => .ok (wordOfBytes (s.byteAt s.pc.toNat) (s.byteAt (s.pc.toNat + 1)))

/-- Fetch, then decode: IllegalOpcode(op, PC) for a word no row selects (R101 to R103, R223, R231). -/
def State.fetchInstr (s : State) : Except Fault Instr :=
  match s.fetchWord with
  | .error f => .error f
  | .ok op =>
    match decodeWord op with
    | none => .error (.illegalOpcode op s.pc)
    | some i => .ok i

/-- The end of a cycle: the tick, when the execute stage raised no fault (R101, R107, R108). -/
def endCycle (o : StepOutcome) : StepOutcome :=
  match o with
  | .next t => .next (if t.fault = none then t.tick else t)
  | .fault f => .fault f
  | .refused r => .refused r

/-- The state with a word stored where the next cycle fetches it, and with what that fetch needs: phase Running, no
latched fault, and a PC that can be fetched from (0x200 where it cannot). It stands for Initialize and LoadProgram
(log 6). -/
def State.placeWord (s : State) (op : Word) : State :=
  let pc := if s.pc.toNat ≤ 0xFFE then s.pc else BitVec.ofNat 16 Config.progBase
  { s with
    pc := pc
    mem := Memory.writeBytes s.mem pc.toNat [highByte op, lowByte op]
    phase := .running
    fault := none }

end Sys2Proof.Machine
end

