-- ==== Sys2Proof/Machine/Operands.lean ====
section
/-! DEFINITION. The operand forms: literals at 16 bits (30_encoding.md R72), the indexed effective address
(44_index_memory.md), the block V0..Vx, the key operand (46_keyboard_timers.md R185), the decimal digits (R163), the glyph
address (R162) and the pixels of a sprite (45_display.md R176 to R178). -/

namespace Sys2Proof.Machine

/-- The register VF (R23). -/
abbrev regF : Reg := 15

/-- `zext_16(nnn)` (R72). -/
def wordOfLiteral (nnn : Addr) : Word := nnn.setWidth 16

/-- `zext_16(V[x])` (R8). -/
def wordOfByte (b : Byte) : Word := b.setWidth 16

/-- The effective address of byte `k` of an access through `I`: the integer `I + k`, not reduced (R52, R61). -/
def State.indexAddr (s : State) (k : Nat) : Nat := s.i.toNat + k

/-- `V[0] .. V[x]`, `x + 1` bytes (R164). -/
def State.blockRegs (s : State) (x : Reg) : List Byte := s.v.toList.take (x.val + 1)

/-- `V[k] <- b` for the bytes of a list in ascending order from `k` (R165). -/
def writeRegsFrom (v : Vector Byte 16) (k : Nat) (bytes : List Byte) : Vector Byte 16 :=
  match bytes with
  | [] => v
  | b :: rest => writeRegsFrom (v.setIfInBounds k b) (k + 1) rest

/-- `V[0], V[1], ... <-` the bytes of a list (R165). -/
def State.writeBlockRegs (s : State) (bytes : List Byte) : State := { s with v := writeRegsFrom s.v 0 bytes }

/-- The key a register names, or KeyIndexOutOfRange when it is above 15: no masking (R185, R226, decision D4, log 10). -/
def State.keyOperand (s : State) (x : Reg) : Except Fault (Fin 16) :=
  if h : (s.readV x).toNat < 16 then .ok ⟨(s.readV x).toNat, h⟩ else .error (.keyIndexOutOfRange (s.readV x))

/-- `keys[k]` (R32). -/
def State.keyDown (s : State) (k : Fin 16) : Bool := s.keys[k.val]

/-- Hundreds, tens, ones of a byte, each a whole byte (R163). -/
def decimalDigits (b : Byte) : List Byte :=
  [BitVec.ofNat 8 (b.toNat / 100), BitVec.ofNat 8 (b.toNat / 10 % 10), BitVec.ofNat 8 (b.toNat % 10)]

/-- `5 * zext_16(V[x])`, from the whole byte at 16 bits (R162, decision D10, log 16). -/
def glyphAddress (b : Byte) : Word := BitVec.ofNat 16 (Config.glyphBytes * b.toNat)

/-- The column of sprite offset `c` for the start column `cx` (R178). -/
def spriteCol (cx : Byte) (c : Nat) : Fin 64 := ⟨(cx.toNat + c) % 64, Nat.mod_lt _ (by decide)⟩

/-- The row of sprite offset `r` for the start row `cy` (R178). -/
def spriteRow (cy : Byte) (r : Nat) : Fin 32 := ⟨(cy.toNat + r) % 32, Nat.mod_lt _ (by decide)⟩

/-- Sprite bit for column offset `c`: bit 7 is the leftmost pixel (R177, decision D11, log 15). -/
def spriteBit (b : Byte) (c : Nat) : Bool := b.getLsbD (7 - c)

end Sys2Proof.Machine
end

