-- ==== Sys2Proof/Machine/Flags.lean ====
section
/-! DEFINITION. Every flag computation of the machine, each a function of the operands before the operation at a width
that cannot overflow (43_alu.md R152), and the write of a result and its flag (R153, 40_cycle.md R110). -/

namespace Sys2Proof.Machine

/-- A flag as the byte VF receives: 0x00 or 0x01, all eight bits (R153). -/
def flagByte (flag : Bool) : Byte := if flag then 1 else 0

/-- Carry out of `a + b`: the exact sum exceeds 255 (R146). -/
def carryOut (a b : Byte) : Bool := 255 < a.toNat + b.toNat

/-- No borrow in `a - b`: false exactly when `a < b` (R147, R149). -/
def noBorrow (a b : Byte) : Bool := !(a.toNat < b.toNat)

/-- The bit a right shift drops (R148). -/
def droppedLow (a : Byte) : Bool := a.getLsbD 0

/-- The bit a left shift drops (R150). -/
def droppedHigh (a : Byte) : Bool := a.getLsbD 7

/-- `V[x] <- result`, then `V[F] <- flag`: with `x = F` the flag remains (R153, decision D6, log 12). -/
def State.writeResultFlag (s : State) (x : Reg) (result : Byte) (flag : Bool) : State :=
  (s.writeV x result).writeV regF (flagByte flag)

end Sys2Proof.Machine
end

