-- ==== Sys2Proof/Machine/Alu.lean ====
section
/-! DEFINITION. Register load, arithmetic, logic, shifts and random: 6xkk, 7xkk, 8xy0 to 8xyE, Cxkk (43_alu.md R140 to
R153). None can fault. -/

namespace Sys2Proof.Machine

/-- 6xkk: `V[x] <- kk` (R140). -/
def execLdVxKk (x : Reg) (kk : Byte) (s : State) : StepOutcome := .next (s.writeV x kk).advance

/-- 7xkk: `V[x] <- (V[x] + kk) mod 256`, no flag (R141). -/
def execAddVxKk (x : Reg) (kk : Byte) (s : State) : StepOutcome := .next (s.writeV x (s.readV x + kk)).advance

/-- 8xy0: `V[x] <- V[y]` (R142). -/
def execLdVxVy (x y : Reg) (s : State) : StepOutcome := .next (s.writeV x (s.readV y)).advance

/-- 8xy1: `V[x] <- V[x] | V[y]`, VF unchanged (R143, decision D7, log 13). -/
def execOrVxVy (x y : Reg) (s : State) : StepOutcome := .next (s.writeV x (s.readV x ||| s.readV y)).advance

/-- 8xy2: `V[x] <- V[x] & V[y]`, VF unchanged (R144, decision D7, log 13). -/
def execAndVxVy (x y : Reg) (s : State) : StepOutcome := .next (s.writeV x (s.readV x &&& s.readV y)).advance

/-- 8xy3: `V[x] <- V[x] ^ V[y]`, VF unchanged (R145, decision D7, log 13). -/
def execXorVxVy (x y : Reg) (s : State) : StepOutcome := .next (s.writeV x (s.readV x ^^^ s.readV y)).advance

/-- 8xy4: add, `VF` = carry (R146). -/
def execAddVxVy (x y : Reg) (s : State) : StepOutcome :=
  .next (s.writeResultFlag x (s.readV x + s.readV y) (carryOut (s.readV x) (s.readV y))).advance

/-- 8xy5: `V[x] - V[y]`, `VF` = no borrow (R147). -/
def execSubVxVy (x y : Reg) (s : State) : StepOutcome :=
  .next (s.writeResultFlag x (s.readV x - s.readV y) (noBorrow (s.readV x) (s.readV y))).advance

/-- 8xy6: `V[x]` right one bit in place, `VF` = old bit 0; `y` is not read (R148, decision D5, log 11). -/
def execShrVxVy (x _y : Reg) (s : State) : StepOutcome :=
  .next (s.writeResultFlag x (s.readV x >>> 1) (droppedLow (s.readV x))).advance

/-- 8xy7: `V[y] - V[x]`, `VF` = no borrow (R149, decision D12, log 14). -/
def execSubnVxVy (x y : Reg) (s : State) : StepOutcome :=
  .next (s.writeResultFlag x (s.readV y - s.readV x) (noBorrow (s.readV y) (s.readV x))).advance

/-- 8xyE: `V[x]` left one bit in place, `VF` = old bit 7; `y` is not read (R150, decision D5, log 11). -/
def execShlVxVy (x _y : Reg) (s : State) : StepOutcome :=
  .next (s.writeResultFlag x (s.readV x <<< 1) (droppedHigh (s.readV x))).advance

/-- Cxkk: `V[x] <- rand() & kk`, one fresh byte an execution (R151, log 3). -/
def execRndVxKk (x : Reg) (kk : Byte) (s : State) : StepOutcome :=
  .next (s.drawByte.2.writeV x (s.drawByte.1 &&& kk)).advance

end Sys2Proof.Machine
end

