-- ==== Sys2Proof/Machine/Display.lean ====
section
/-! DEFINITION. The framebuffer instructions: 00E0 and Dxyn (45_display.md R175 to R179). The draw is the spec's double
loop; the picture it leaves is stated pixel by pixel in the obligations. -/

namespace Sys2Proof.Machine

/-- The framebuffer a draw is working on and whether a lit pixel has been unset so far (R179). -/
structure Blit where
  fb : Framebuffer
  hit : Bool
  deriving DecidableEq, Repr

/-- One sprite bit of 1: note a collision, then XOR the pixel (R176, R179). -/
def blitPixel (row : Fin 32) (col : Fin 64) (acc : Blit) : Blit :=
  { fb := flipPixel acc.fb row col, hit := acc.hit || pixelOf acc.fb row col }

/-- The column offsets `c`, `c + 1`, ..., `count` of them, of one sprite row (R176). -/
def blitCols (row : Fin 32) (cx : Byte) (b : Byte) (c count : Nat) (acc : Blit) : Blit :=
  match count with
  | 0 => acc
  | k + 1 =>
    blitCols row cx b (c + 1) k (if spriteBit b c then blitPixel row (spriteCol cx c) acc else acc)

/-- The sprite rows from offset `r` downward, eight columns each (R176). -/
def blitRows (cx cy : Byte) (r : Nat) (bytes : List Byte) (acc : Blit) : Blit :=
  match bytes with
  | [] => acc
  | b :: rest => blitRows cx cy (r + 1) rest (blitCols (spriteRow cy r) cx b 0 8 acc)

/-- The whole draw of a sprite at (cx, cy) (R176). -/
def blitSprite (cx cy : Byte) (bytes : List Byte) (fb : Framebuffer) : Blit :=
  blitRows cx cy 0 bytes { fb := fb, hit := false }

/-- The picture and the flag a draw leaves: `V[F] <- hit`, written once at the end (R176, decision D11, log 15). -/
def State.showBlit (s : State) (d : Blit) : State := { s with fb := d.fb }.writeV regF (flagByte d.hit)

/-- 00E0: every pixel false (R175). -/
def execCls (s : State) : StepOutcome := .next { s with fb := clearFramebuffer }.advance

/-- Dxyn: XOR `n` sprite rows from `mem[I..]` at (V[x], V[y]) (R176). -/
def execDrwVxVyN (x y : Reg) (n : Nibble) (s : State) : StepOutcome :=
  s.orRaise (s.loadBytes (s.indexAddr 0) n.toNat)
    (fun bytes => (s.showBlit (blitSprite (s.readV x) (s.readV y) bytes s.fb)).advance)

end Sys2Proof.Machine
end

