-- ==== Sys2Proof/Machine/Flow.lean ====
section
/-! DEFINITION. Control transfer: 00EE, 1nnn, 2nnn, Bnnn (41_flow.md R120 to R123). -/

namespace Sys2Proof.Machine

/-- 00EE: `PC <- pop()` (R120). -/
def execRet (s : State) : StepOutcome := s.orRaise s.pop (fun p => p.2.jumpTo p.1)

/-- 1nnn: `PC <- nnn` (R121). -/
def execJp (nnn : Addr) (s : State) : StepOutcome := .next (s.jumpTo (wordOfLiteral nnn))

/-- 2nnn: push `PC + 2`, then `PC <- nnn` (R122). -/
def execCall (nnn : Addr) (s : State) : StepOutcome :=
  s.orRaise (s.push (s.pc + 2)) (fun t => t.jumpTo (wordOfLiteral nnn))

/-- Bnnn: `PC <- nnn + V[0]`, not reduced to 12 bits (R123). -/
def execJpV0Nnn (nnn : Addr) (s : State) : StepOutcome :=
  .next (s.jumpTo (wordOfLiteral nnn + wordOfByte (s.readV 0)))

end Sys2Proof.Machine
end

