-- ==== Sys2Proof/Machine/Index.lean ====
section
/-! DEFINITION. The index register and the memory instructions: Annn, Fx1E, Fx29, Fx33, Fx55, Fx65 (44_index_memory.md
R160 to R165). The memory instructions leave `I` unchanged (decision D8, log 13). -/

namespace Sys2Proof.Machine

/-- Annn: `I <- nnn` (R160). -/
def execLdINnn (nnn : Addr) (s : State) : StepOutcome := .next (s.writeI (wordOfLiteral nnn)).advance

/-- Fx1E: `I <- (I + V[x]) mod 2^16`, no flag (R161, decision D9, log 16). -/
def execAddIVx (x : Reg) (s : State) : StepOutcome := .next (s.writeI (s.i + wordOfByte (s.readV x))).advance

/-- Fx29: `I <- 5 * V[x]` (R162). -/
def execLdFVx (x : Reg) (s : State) : StepOutcome := .next (s.writeI (glyphAddress (s.readV x))).advance

/-- Fx33: the decimal digits of `V[x]` to `mem[I..I+2]` (R163). -/
def execLdBVx (x : Reg) (s : State) : StepOutcome :=
  s.orRaise (s.storeBytes (s.indexAddr 0) (decimalDigits (s.readV x))) State.advance

/-- Fx55: `V[0]..V[x]` to `mem[I..I+x]` (R164). -/
def execLdMemVx (x : Reg) (s : State) : StepOutcome :=
  s.orRaise (s.storeBytes (s.indexAddr 0) (s.blockRegs x)) State.advance

/-- Fx65: `mem[I..I+x]` to `V[0]..V[x]` (R165). -/
def execLdVxMem (x : Reg) (s : State) : StepOutcome :=
  s.orRaise (s.loadBytes (s.indexAddr 0) (x.val + 1)) (fun bytes => (s.writeBlockRegs bytes).advance)

end Sys2Proof.Machine
end

