-- ==== Sys2Proof/Machine/Keyboard.lean ====
section
/-! DEFINITION. Keyboard and timer instructions: Ex9E, ExA1, Fx0A, Fx07, Fx15, Fx18 (46_keyboard_timers.md R185 to
R190). -/

namespace Sys2Proof.Machine

/-- Ex9E: skip if the key `V[x]` is pressed (R185). -/
def execSkpVx (x : Reg) (s : State) : StepOutcome :=
  s.orRaise (s.keyOperand x) (fun k => s.skipWhen (s.keyDown k))

/-- ExA1: skip if the key `V[x]` is not pressed (R186). -/
def execSknpVx (x : Reg) (s : State) : StepOutcome :=
  s.orRaise (s.keyOperand x) (fun k => s.skipWhen (!s.keyDown k))

/-- Fx0A: set the wait flag and `keyboard_register`, and go on (R187). The nibble `x` itself is the operand. -/
def execLdVxK (x : Reg) (s : State) : StepOutcome := .next { s with waiting := true, keyReg := x }.advance

/-- Fx07: `V[x] <- DT`, before this cycle's tick (R188). -/
def execLdVxDt (x : Reg) (s : State) : StepOutcome := .next (s.writeV x s.dt).advance

/-- Fx15: `DT <- V[x]`; the tick follows in the same cycle (R189). -/
def execLdDtVx (x : Reg) (s : State) : StepOutcome := .next { s with dt := s.readV x }.advance

/-- Fx18: `ST <- V[x]`; the tick follows in the same cycle (R190). -/
def execLdStVx (x : Reg) (s : State) : StepOutcome := .next { s with st := s.readV x }.advance

end Sys2Proof.Machine
end

