-- ==== Sys2Proof/Machine/Skip.lean ====
section
/-! DEFINITION. The conditional skips on registers: 3xkk, 4xkk, 5xy0, 9xy0 (42_skip.md R130 to R133). -/

namespace Sys2Proof.Machine

/-- 3xkk: skip if `V[x] = kk` (R130). -/
def execSeVxKk (x : Reg) (kk : Byte) (s : State) : StepOutcome := .next (s.skipWhen (s.readV x == kk))

/-- 4xkk: skip if `V[x] != kk` (R131). -/
def execSneVxKk (x : Reg) (kk : Byte) (s : State) : StepOutcome := .next (s.skipWhen (s.readV x != kk))

/-- 5xy0: skip if `V[x] = V[y]` (R132). -/
def execSeVxVy (x y : Reg) (s : State) : StepOutcome := .next (s.skipWhen (s.readV x == s.readV y))

/-- 9xy0: skip if `V[x] != V[y]` (R133). -/
def execSneVxVy (x y : Reg) (s : State) : StepOutcome := .next (s.skipWhen (s.readV x != s.readV y))

end Sys2Proof.Machine
end

