-- ==== Sys2Proof/Machine/Cycle.lean ====
section
/-! DEFINITION. One cycle: admission, fetch, decode, execute, timer tick (40_cycle.md R100 to R108). -/

namespace Sys2Proof.Machine

/-- `Cycle()` (R101): a stage that raises ends the cycle with the latch set and nothing else changed (R108). -/
def cycle (s : State) : StepOutcome :=
  match s.cycleBar with
  | some o => o
  | none =>
    match s.fetchInstr with
    | .error f => s.raise f
    | .ok i => endCycle (exec i s)

end Sys2Proof.Machine
end

