-- ==== Sys2Proof/Machine/Step.lean ====
section
/-! DEFINITION. The step of the machine is one cycle (40_cycle.md R100), and where a test places the instruction that
the next step runs. -/

namespace Sys2Proof.Machine

/-- The machine's step: one strobe of the host, one cycle (R100, R204). -/
def step (s : State) : Host.Outcome State Fault Refusal := cycle s

/-- The state with the instruction of a table row's bits stored where the next step fetches it (log 6). -/
def State.withFetchWord (s : State) (nbits w : Nat) : State := s.placeWord (tableWord nbits w)

end Sys2Proof.Machine
end

