-- ==== Sys2Proof/Machine/HostActions.lean ====
section
/-! DEFINITION. The second agent: what the host can do to the core between cycles (47_host_interface.md R200 to R212).
`step` is the action `cycle`. The random byte, the host's remaining duty (R209), is the free value of `State.drawByte`. -/

namespace Sys2Proof.Machine

/-- An action of the host (R200). -/
inductive HostAction where
  /-- Construction of the VM: any state to the reset state (R201). -/
  | reset
  /-- `Initialize()` with the open parameter FONT as its argument (R202, R7 (a); log 5). -/
  | initializeFont (font : Vector Byte Config.fontLen)
  /-- `LoadProgram(image)` (R203). -/
  | loadProgram (image : List Byte)
  /-- `Cycle`: one step of the core (R204). -/
  | cycle
  /-- `SetKeys(k0..k15)` (R205). -/
  | setKeys (keys : Vector Bool 16)
  /-- `KeyResolve(k)`; which key goes down is the host's choice (R206, decision D22, log 20). -/
  | keyResolve (k : Fin 16)
  /-- `ReadFramebuffer`: `State.observedFramebuffer`, without effect (R207). -/
  | readFramebuffer
  /-- `ReadWait`: `State.observedWait`, without effect (R208). -/
  | readWait
  deriving DecidableEq, Repr

/-- What ReadFramebuffer sees: every cell (R207). -/
def State.observedFramebuffer (s : State) : Framebuffer := s.fb

/-- What ReadWait sees: the wait flag, the wait register and, after a fault, its record (R208). -/
def State.observedWait (s : State) : Bool × Reg × Option Fault := (s.waiting, s.keyReg, s.fault)

/-- A latched fault stops every action that asks for none (R36, R212, R220; log 4). -/
def State.unlessFaulted (s : State) (o : StepOutcome) : StepOutcome :=
  match s.fault with
  | some f => .fault f
  | none => o

/-- Reset: the reset state; the count of random bytes taken goes on, so that later draws stay fresh (R201, log 3). -/
def hostReset (s : State) : StepOutcome := .next { State.reset with draws := s.draws }

/-- Initialize: the font to 0x000..0x04F, phase Ready (R202). -/
def hostInitialize (font : Vector Byte Config.fontLen) (s : State) : StepOutcome :=
  s.unlessFaulted
    (if s.phase = .idle then
      .next { s with mem := Memory.writeBytes s.mem Config.fontBase font.toList, phase := .ready }
    else .refused .initializeNotIdle)

/-- LoadProgram: the image to 0x200 upward, phase Running; ImageTooLarge over 3584 bytes, no byte copied (R203, R222). -/
def hostLoadProgram (image : List Byte) (s : State) : StepOutcome :=
  s.unlessFaulted
    (if s.phase = .ready then
      (if imageFits image then
        .next { s with mem := Memory.writeBytes s.mem Config.progBase image, phase := .running }
      else s.raise (.imageTooLarge image.length))
    else .refused .loadNotReady)

/-- SetKeys: the latch replaced, nothing else (R205). -/
def hostSetKeys (keys : Vector Bool 16) (s : State) : StepOutcome := s.unlessFaulted (.next { s with keys := keys })

/-- KeyResolve: the key index as a byte to `V[keyboard_register]`, the flag cleared (R206). -/
def hostKeyResolve (k : Fin 16) (s : State) : StepOutcome :=
  s.unlessFaulted
    (if s.waiting = true ∧ s.phase = .running then
      .next { s.writeV s.keyReg (BitVec.ofNat 8 k.val) with waiting := false }
    else .refused .keyResolveNotWaiting)

/-- What each action does in each state (R212). -/
def act (a : HostAction) (s : State) : StepOutcome :=
  match a with
  | .reset => hostReset s
  | .initializeFont font => hostInitialize font s
  | .loadProgram image => hostLoadProgram image s
  | .cycle => step s
  | .setKeys keys => hostSetKeys keys s
  | .keyResolve k => hostKeyResolve k s
  | .readFramebuffer => .next s
  | .readWait => .next s

/-- A list of actions one after another, stopping at the first that is not admitted (R57, R200). -/
def actAll (actions : List HostAction) (s : State) : StepOutcome :=
  match actions with
  | [] => .next s
  | a :: rest =>
    match act a s with
    | .next t => actAll rest t
    | .fault f => .fault f
    | .refused r => .refused r

end Sys2Proof.Machine
end

