-- ==== Sys2Proof/Safety.lean ====
section
/-! DEFINITION. The terms claims are stated in: good states, the invariants, who may write what, what one instruction
leaves unchanged, the pixels under a sprite, and the premise about the host (47_host_interface.md R210). -/

namespace Sys2Proof.Machine

/-! ### Good states and invariants -/

/-- A state no fault is latched in: part of every postcondition (60_exceptions.md R220). -/
abbrev State.good (s : State) : Prop := s.fault = none

/-- A state in which a cycle is admitted (40_cycle.md R100). -/
abbrev State.admitted (s : State) : Prop := s.phase = .running ∧ s.fault = none

/-- Memory is in its canonical form: only addresses 0x000..0xFFF, rising, no entry that an unlisted address equals. -/
abbrev State.memoryCanonical (s : State) : Prop := Memory.wf s.mem = true

/-- The bounds 20_memory.md R64 gives for addresses above 0xFFF: PC is at most 0x10FE (a Bnnn) and a live return address
at most 0x1000 (a 2nnn at 0xFFE). -/
abbrev State.addressesBounded (s : State) : Prop :=
  s.pc.toNat ≤ 0x10FE ∧ ∀ k : Fin 16, k.val < s.sp.val → (s.stack[k.val]).toNat ≤ 0x1000

/-- The end of a run by the spec's own convention: PC holds the address of a jump to itself (40_cycle.md R112). -/
def State.atSelfJump (s : State) : Prop := ∃ nnn, s.fetchInstr = .ok (.jp nnn) ∧ wordOfLiteral nnn = s.pc

/-! ### Who may write what -/

/-- The general registers an instruction may write: the list of 10_state.md R21 and the flag table of R23. -/
def mayWriteV (i : Instr) (r : Reg) : Bool :=
  match i with
  | .ldVxKk x _ | .addVxKk x _ | .ldVxVy x _ | .orVxVy x _ | .andVxVy x _ | .xorVxVy x _ | .rndVxKk x _
  | .ldVxDt x => r == x
  | .addVxVy x _ | .subVxVy x _ | .shrVxVy x _ | .subnVxVy x _ | .shlVxVy x _ => r == x || r == regF
  | .drwVxVyN _ _ _ => r == regF
  | .ldVxMem x => r ≤ x
  | .cls | .ret | .jp _ | .call _ | .seVxKk _ _ | .sneVxKk _ _ | .seVxVy _ _ | .sneVxVy _ _ | .ldINnn _
  | .jpV0Nnn _ | .skpVx _ | .sknpVx _ | .ldVxK _ | .ldDtVx _ | .ldStVx _ | .addIVx _ | .ldFVx _ | .ldBVx _
  | .ldMemVx _ => false

/-- The four instructions that set PC directly (10_state.md R25). -/
def setsPcDirectly (i : Instr) : Bool :=
  match i with
  | .ret | .jp _ | .call _ | .jpV0Nnn _ => true
  | .cls | .seVxKk _ _ | .sneVxKk _ _ | .seVxVy _ _ | .ldVxKk _ _ | .addVxKk _ _ | .ldVxVy _ _ | .orVxVy _ _
  | .andVxVy _ _ | .xorVxVy _ _ | .addVxVy _ _ | .subVxVy _ _ | .shrVxVy _ _ | .subnVxVy _ _ | .shlVxVy _ _
  | .sneVxVy _ _ | .ldINnn _ | .rndVxKk _ _ | .drwVxVyN _ _ _ | .skpVx _ | .sknpVx _ | .ldVxDt _ | .ldVxK _
  | .ldDtVx _ | .ldStVx _ | .addIVx _ | .ldFVx _ | .ldBVx _ | .ldMemVx _ | .ldVxMem _ => false

/-- The six conditional skips (10_state.md R25, 40_cycle.md R105). -/
def isSkip (i : Instr) : Bool :=
  match i with
  | .seVxKk _ _ | .sneVxKk _ _ | .seVxVy _ _ | .sneVxVy _ _ | .skpVx _ | .sknpVx _ => true
  | .cls | .ret | .jp _ | .call _ | .ldVxKk _ _ | .addVxKk _ _ | .ldVxVy _ _ | .orVxVy _ _ | .andVxVy _ _
  | .xorVxVy _ _ | .addVxVy _ _ | .subVxVy _ _ | .shrVxVy _ _ | .subnVxVy _ _ | .shlVxVy _ _ | .ldINnn _
  | .jpV0Nnn _ | .rndVxKk _ _ | .drwVxVyN _ _ _ | .ldVxDt _ | .ldVxK _ | .ldDtVx _ | .ldStVx _ | .addIVx _
  | .ldFVx _ | .ldBVx _ | .ldMemVx _ | .ldVxMem _ => false

/-- The fault an instruction's execute stage can raise in a state (60_exceptions.md R221, R231): the three for memory
and the draw name `max(I, 0x1000)`. -/
def mayRaise (i : Instr) (s : State) (f : Fault) : Prop :=
  match i with
  | .call _ => f = .stackOverflow ∧ s.sp.val = 16
  | .ret => f = .stackUnderflow ∧ s.sp.val = 0
  | .skpVx x | .sknpVx x => f = .keyIndexOutOfRange (s.readV x) ∧ 15 < (s.readV x).toNat
  | .drwVxVyN _ _ n => f = .memOutOfRange (max s.i.toNat 0x1000) ∧ 0 < n.toNat ∧ 0xFFF < s.i.toNat + (n.toNat - 1)
  | .ldBVx _ => f = .memOutOfRange (max s.i.toNat 0x1000) ∧ 0xFFF < s.i.toNat + 2
  | .ldMemVx x | .ldVxMem x => f = .memOutOfRange (max s.i.toNat 0x1000) ∧ 0xFFF < s.i.toNat + x.val
  | .cls | .jp _ | .seVxKk _ _ | .sneVxKk _ _ | .seVxVy _ _ | .ldVxKk _ _ | .addVxKk _ _ | .ldVxVy _ _
  | .orVxVy _ _ | .andVxVy _ _ | .xorVxVy _ _ | .addVxVy _ _ | .subVxVy _ _ | .shrVxVy _ _ | .subnVxVy _ _
  | .shlVxVy _ _ | .sneVxVy _ _ | .ldINnn _ | .jpV0Nnn _ | .rndVxKk _ _ | .ldVxDt _ | .ldVxK _ | .ldDtVx _
  | .ldStVx _ | .addIVx _ | .ldFVx _ => False

/-! ### What one instruction leaves unchanged -/

/-- From `s` to `t` one register was written and PC went on by 2; every other register, every byte of memory and all
the rest of the state are as before. -/
def OneRegisterWritten (s t : State) (x : Reg) (b : Byte) : Prop :=
  t.readV x = b ∧ (∀ r, r ≠ x → t.readV r = s.readV r) ∧ (∀ a, t.byteAt a = s.byteAt a) ∧
    t = { s with v := t.v, pc := s.pc + 2 }

/-- From `s` to `t` a result and a flag were written, the flag last (43_alu.md R153), and PC went on by 2; every other
register, every byte of memory and all the rest of the state are as before. -/
def ResultAndFlagWritten (s t : State) (x : Reg) (b : Byte) (flag : Prop) : Prop :=
  (flag → t.readV regF = 0x01) ∧ (¬flag → t.readV regF = 0x00) ∧ (x ≠ regF → t.readV x = b) ∧
    (∀ r, r ≠ x → r ≠ regF → t.readV r = s.readV r) ∧ (∀ a, t.byteAt a = s.byteAt a) ∧
    t = { s with v := t.v, pc := s.pc + 2 }

/-- From `s` to `t` the bytes of a list were stored at `base` upward and PC went on by 2; every byte of memory outside
them and all the rest of the state are as before. -/
def BytesStored (s t : State) (base : Nat) (bytes : List Byte) : Prop :=
  (∀ k, ∀ h : k < bytes.length, t.byteAt (base + k) = bytes[k]) ∧
    (∀ a, (a < base ∨ base + bytes.length ≤ a) → t.byteAt a = s.byteAt a) ∧
    t = { s with mem := t.mem, pc := s.pc + 2 }

/-! ### The pixels under a sprite -/

/-- A sprite bit of 1 of the draw `Dxyn` lands on pixel (row, col): row offset `r` below the sprite's height, column
offset `c` of its eight, both wrapped one by one, bit 7 leftmost (45_display.md R176 to R178). -/
def SpriteCovers (s : State) (x y : Reg) (n : Nibble) (row : Fin 32) (col : Fin 64) : Prop :=
  ∃ r c : Nat, r < n.toNat ∧ c < 8 ∧ row.val = ((s.readV y).toNat + r) % 32 ∧ col.val = ((s.readV x).toNat + c) % 64 ∧
    (s.byteAt (s.indexAddr r)).getLsbD (7 - c) = true

/-! ### The premise about the host -/

/-- `HostPausesOnWait`: along the actions, no Cycle is strobed in a state whose wait flag is set (R210). -/
def pausesOnWait (actions : List HostAction) (s : State) : Bool :=
  match actions with
  | [] => true
  | a :: rest =>
    !(decide (a = .cycle) && s.waiting) &&
      (match act a s with
       | .next t => pausesOnWait rest t
       | .fault _ => true
       | .refused _ => true)

end Sys2Proof.Machine
end

