-- ==== Sys2Proof/Certificates/Slice0/Obligations.lean ====
section
/-! DEFINITION. The statements for the provers, from the numbered rules of spec/. OBLIGATIONS.json lists them in this
order with their tier, basis and citations. `s.pc + 2` and `s.pc + 4` are modulo 2^16 by the spec's decision D16 (log 16);
that differs from the rules' plain `PC + 2` only from a PC above 0xFFFB, where nothing is ever fetched (R102). -/

open Sys2Proof Sys2Proof.Machine

/-! ### Decoding and encoding -/

/-- A few words written out from the encodings of 30_encoding.md R73 decode to what they stand for. -/
def Obligations.DecodedWordsFromTheSpec : Prop :=
  decodeBytes [0x00, 0xE0] = .decoded .cls [] ∧
  decodeBytes [0x1A, 0xBC] = .decoded (.jp 0xABC) [] ∧
  decodeBytes [0x3A, 0x7F] = .decoded (.seVxKk 0xA 0x7F) [] ∧
  decodeBytes [0x7E, 0x81] = .decoded (.addVxKk 0xE 0x81) [] ∧
  decodeBytes [0x8A, 0xB7] = .decoded (.subnVxVy 0xA 0xB) [] ∧
  decodeBytes [0xA1, 0x23] = .decoded (.ldINnn 0x123) [] ∧
  decodeBytes [0xDA, 0xBF] = .decoded (.drwVxVyN 0xA 0xB 0xF) [] ∧
  decodeBytes [0xE1, 0xA1] = .decoded (.sknpVx 1) [] ∧
  decodeBytes [0xF1, 0x65] = .decoded (.ldVxMem 1) [] ∧
  decodeBytes [0x00, 0x00] = .illegalOpcode 0x0000 ∧
  decodeBytes [0x5A, 0xB1] = .illegalOpcode 0x5AB1

/-- 00_scope.md R12, whole: what split, merge and merge_u16 are, and that each pair is a round trip. -/
def Obligations.SplitAndMergeRoundTrip : Prop :=
  (∀ b : Byte, (split b).1.toNat = b.toNat / 16 ∧ (split b).2.toNat = b.toNat % 16) ∧
  (∀ h l : Nibble, (merge h l).toNat = 16 * h.toNat + l.toNat) ∧
  (∀ n0 n1 n2 n3 : Nibble,
    (mergeU16 n0 n1 n2 n3).toNat = 4096 * n0.toNat + 256 * n1.toNat + 16 * n2.toNat + n3.toNat) ∧
  (∀ b : Byte, merge (split b).1 (split b).2 = b) ∧
  (∀ n0 n1 n2 n3 : Nibble,
    split (highByte (mergeU16 n0 n1 n2 n3)) = (n0, n1) ∧ split (lowByte (mergeU16 n0 n1 n2 n3)) = (n2, n3))

/-- Decoding the two bytes of any instruction gives it back, with every operand at every value, and leaves the bytes
after it (30_encoding.md R70 to R74). -/
def Obligations.DecodeOfEncodeIsTheInstruction : Prop :=
  ∀ (i : Instr) (rest : List Byte), decodeBytes (encodeBytes i ++ rest) = .decoded i rest

/-- A legal word has one meaning: encoding what it decodes to gives the word back (30_encoding.md R72, R75). -/
def Obligations.EncodeOfDecodeIsTheWord : Prop :=
  ∀ (op : Word) (i : Instr), decodeWord op = some i → encode i = op

/-- The decoder takes exactly the words of the opcode map, each to an instruction of the row that selects it, and no
word has two rows (30_encoding.md R73, R75, R76). The rows `0nnn` are the spec's decision D1 (log 17). -/
def Obligations.DecoderFollowsTheOpcodeMap : Prop :=
  (∀ op : Word, decodeWord op = none ↔ legalWord op = false) ∧
  (∀ (op : Word) (i : Instr), decodeWord op = some i → i.row ∈ opcodeTable ∧ i.row.selects op = true) ∧
  (∀ r ∈ opcodeTable, ∀ r' ∈ opcodeTable, ∀ op : Word, r.selects op = true → r'.selects op = true → r = r')

/-! ### The cycle -/

/-- Fetch is big-endian (20_memory.md R53, 40_cycle.md R102): 256 times the byte at PC plus the byte at PC + 1; and past
0xFFE it is MemOutOfRange, by the spec's decision D2 (log 8). -/
def Obligations.FetchIsBigEndianAndChecked : Prop :=
  ∀ s : State,
    (s.pc.toNat ≤ 0xFFE → ∃ op, s.fetchWord = .ok op ∧
      op.toNat = 256 * (s.byteAt s.pc.toNat).toNat + (s.byteAt (s.pc.toNat + 1)).toNat) ∧
    (0xFFE < s.pc.toNat → s.fetchWord = .error (.memOutOfRange (max s.pc.toNat 0x1000)))

/-- A step runs the decoded instruction: its execute stage, then one tick of each timer unless the execute stage
faulted (40_cycle.md R101, R107, R108). -/
def Obligations.StepRunsTheDecodedInstruction : Prop :=
  ∀ (s : State) (i : Instr), s.admitted → s.pc.toNat ≤ 0xFFE →
    decodeBytes [s.byteAt s.pc.toNat, s.byteAt (s.pc.toNat + 1)] = .decoded i [] →
    step s = endCycle (exec i s) ∧
    ∀ t, exec i s = .next t →
      (t.fault = none → step s = .next { t with
        dt := if t.dt = 0 then 0 else t.dt - 1
        st := if t.st = 0 then 0 else t.st - 1 }) ∧
      (t.fault ≠ none → step s = .next t)

/-- A PC that cannot be fetched from, and an illegal word: the step latches the fault and changes nothing else; no
tick, PC not advanced (40_cycle.md R102, R108, 60_exceptions.md R223, R224; decisions D2, D14, logs 8 and 18). -/
def Obligations.FetchAndDecodeFaultsAreLatched : Prop :=
  ∀ s : State, s.admitted →
    (0xFFE < s.pc.toNat → step s = .next { s with fault := some (.memOutOfRange (max s.pc.toNat 0x1000)) }) ∧
    (∀ op, s.pc.toNat ≤ 0xFFE → op = wordOfBytes (s.byteAt s.pc.toNat) (s.byteAt (s.pc.toNat + 1)) →
      legalWord op = false → step s = .next { s with fault := some (.illegalOpcode op s.pc) })

/-- With a fault latched, Reset and the reads are admitted and nothing else is (10_state.md R36, 60_exceptions.md R220;
decision D14; that the answer is the outcome `fault` is the model's choice, log 4). -/
def Obligations.LatchedFaultStopsAllButResetAndReads : Prop :=
  ∀ (s : State) (f : Fault), s.fault = some f →
    act .reset s = .next { State.reset with draws := s.draws } ∧
    act .readFramebuffer s = .next s ∧ act .readWait s = .next s ∧
    ∀ a : HostAction, a ≠ .reset → a ≠ .readFramebuffer → a ≠ .readWait → act a s = .fault f

/-- Every admitted step answers a next state, and so does the execute stage of every instruction in every state: no
instruction is refused and none stops the machine by itself (40_cycle.md R100, R103). -/
def Obligations.AdmittedStepsAlwaysAnswerAState : Prop :=
  (∀ (i : Instr) (s : State), ∃ t, exec i s = .next t) ∧ (∀ s : State, s.admitted → ∃ t, step s = .next t)

/-- A step that latches a fault changes nothing but the latch: a precise fault (40_cycle.md R108, 60_exceptions.md R228;
decision D14, log 18). -/
def Obligations.FaultingStepChangesOnlyTheLatch : Prop :=
  ∀ s t : State, step s = .next t → t.fault ≠ none → t = { s with fault := t.fault }

/-- Which faults the execute stage can raise: each of the eight instructions that can fault has one faulting condition
and faults exactly then; no other instruction ever faults (60_exceptions.md R221, R227, R231; decisions D2 to D4, logs
8 to 10). -/
def Obligations.EveryFaultHasItsInstructionAndCondition : Prop :=
  ∀ (i : Instr) (s t : State) (f : Fault), s.good → exec i s = .next t → (t.fault = some f ↔ mayRaise i s f)

/-- Each timer falls by one a cycle while it is not zero, from the value an Fx15 or Fx18 of the same cycle wrote
(40_cycle.md R107); the same-cycle clause is an inference the spec marks as its own ("derived: from rule R101"). -/
def Obligations.TimersTickOnceEveryCycle : Prop :=
  ∀ (s t : State) (i : Instr), step s = .next t → t.good → s.fetchInstr = .ok i →
    (∀ x, i = .ldDtVx x → t.dt.toNat = (s.readV x).toNat - 1) ∧
    ((∀ x, i ≠ .ldDtVx x) → t.dt.toNat = s.dt.toNat - 1) ∧
    (∀ x, i = .ldStVx x → t.st.toNat = (s.readV x).toNat - 1) ∧
    ((∀ x, i ≠ .ldStVx x) → t.st.toNat = s.st.toNat - 1)

/-- How PC moves: by 2, or by 2 or 4 for the six skips, except where the four control transfers set it
(40_cycle.md R104 to R106; modulo 2^16 by decision D16, log 16). -/
def Obligations.ProgramCounterMovesByTwoOrFour : Prop :=
  ∀ (i : Instr) (s t : State), s.good → exec i s = .next t → t.good → setsPcDirectly i = false →
    (isSkip i = false → t.pc = s.pc + 2) ∧
    (isSkip i = true → (t.pc = s.pc + 2 ∨ t.pc = s.pc + 4) ∧ t = { s with pc := t.pc })

/-! ### Who changes what -/

/-- The list of 10_state.md R21 and R23: an instruction leaves every general register it does not name as a
destination, and VF unless it is one of the six or names F (decisions D6, D7, logs 12 and 13). -/
def Obligations.OnlyNamedRegistersAreWritten : Prop :=
  ∀ (i : Instr) (s t : State) (r : Reg), exec i s = .next t → mayWriteV i r = false → t.readV r = s.readV r

/-- Memory changes in a cycle only by Fx33 and Fx55 (20_memory.md R50, R55). -/
def Obligations.OnlyTwoInstructionsStore : Prop :=
  ∀ (i : Instr) (s t : State), exec i s = .next t → (∀ x, i ≠ .ldBVx x) → (∀ x, i ≠ .ldMemVx x) →
    t.mem = s.mem ∧ ∀ a, t.byteAt a = s.byteAt a

/-- The framebuffer is changed by no action of the host but Reset and by no cycle but one that executes 00E0 or Dxyn
(10_state.md R31). -/
def Obligations.OnlyClearAndDrawChangeTheFramebuffer : Prop :=
  ∀ (a : HostAction) (s t : State), act a s = .next t → a ≠ .reset →
    (a = .cycle → s.fetchInstr ≠ .ok .cls ∧ ∀ x y n, s.fetchInstr ≠ .ok (.drwVxVyN x y n)) →
    ∀ row col, t.pixel row col = s.pixel row col

/-- Only SetKeys (and Reset) writes the key latch; the core never does (10_state.md R32). -/
def Obligations.OnlySetKeysWritesTheLatch : Prop :=
  ∀ (a : HostAction) (s t : State), act a s = .next t → a ≠ .reset → (∀ ks, a ≠ .setKeys ks) → t.keys = s.keys

/-- The wait flag is set by a cycle that executes Fx0A only, with its x in keyboard_register, and cleared by KeyResolve
(or Reset) only (10_state.md R33). -/
def Obligations.WaitFlagHasOneSetterAndOneClearer : Prop :=
  ∀ (a : HostAction) (s t : State), act a s = .next t → a ≠ .reset →
    (s.waiting = false → t.waiting = true → a = .cycle ∧ ∃ x, s.fetchInstr = .ok (.ldVxK x) ∧ t.keyReg = x) ∧
    (s.waiting = true → t.waiting = false → ∃ k, a = .keyResolve k) ∧
    (t.keyReg ≠ s.keyReg → a = .cycle ∧ s.fetchInstr = .ok (.ldVxK t.keyReg))

/-- Only 2nnn and 00EE touch the stack or SP (10_state.md R28). -/
def Obligations.OnlyCallAndReturnTouchTheStack : Prop :=
  ∀ (i : Instr) (s t : State), exec i s = .next t → (∀ nnn, i ≠ .call nnn) → i ≠ .ret →
    t.sp = s.sp ∧ t.stack = s.stack

/-- Only Annn, Fx1E and Fx29 write I (10_state.md R24; that the four memory instructions leave it is decision D8, log
13). -/
def Obligations.OnlyThreeInstructionsWriteI : Prop :=
  ∀ (i : Instr) (s t : State), exec i s = .next t → (∀ nnn, i ≠ .ldINnn nnn) → (∀ x, i ≠ .addIVx x) →
    (∀ x, i ≠ .ldFVx x) → t.i = s.i

/-- The phase is moved by Initialize, LoadProgram and Reset alone (10_state.md R35), and a latched fault is cleared by
Reset alone (R36; decision D14). -/
def Obligations.PhaseAndLatchMoveAsTheLifecycleSays : Prop :=
  ∀ (a : HostAction) (s t : State), act a s = .next t → a ≠ .reset →
    ((s.phase = .idle ∧ t.phase = .ready ∧ ∃ font, a = .initializeFont font) ∨
     (s.phase = .ready ∧ t.phase = .running ∧ ∃ image, a = .loadProgram image) ∨ t.phase = s.phase) ∧
    (s.fault ≠ none → t.fault = s.fault)

/-! ### Invariants -/

/-- Every step keeps memory in its canonical form: only addresses that exist, rising, no entry an unlisted address
equals (20_memory.md R50, R52). -/
def Obligations.StepKeepsMemoryCanonical : Prop :=
  ∀ s t : State, s.memoryCanonical → step s = .next t → t.memoryCanonical

/-- Every step keeps PC at most 0x10FE and every live return address at most 0x1000: the bounds of 20_memory.md R64. -/
def Obligations.StepKeepsAddressesBounded : Prop :=
  ∀ s t : State, s.addressesBounded → step s = .next t → t.addressesBounded

/-- The reset state meets both invariants (10_state.md R38). -/
def Obligations.ResetMeetsTheInvariants : Prop :=
  State.reset.memoryCanonical ∧ State.reset.addressesBounded

/-- Both invariants hold after every list of host actions, images and fonts of every content among them, from every
state that meets them (47_host_interface.md R200 to R206). -/
def Obligations.HostActionsKeepTheInvariants : Prop :=
  ∀ (actions : List HostAction) (s t : State), s.memoryCanonical → s.addressesBounded →
    actAll actions s = .next t → t.memoryCanonical ∧ t.addressesBounded

/-- In the canonical form, memories that read alike at every address are equal data. -/
def Obligations.EqualReadsMeanEqualMemories : Prop :=
  ∀ m m' : List Host.Cell, Memory.wf m = true → Memory.wf m' = true →
    (∀ a, Memory.read m a = Memory.read m' a) → m = m'

/-! ### What cannot be seen -/

/-- Nothing observes ST: two states that differ in ST alone step to outcomes that differ in ST alone (10_state.md R27,
R39 (d)). -/
def Obligations.SoundTimerIsNeverObserved : Prop :=
  ∀ (s : State) (w : Byte),
    (∀ t, step s = .next t → ∃ w', step { s with st := w } = .next { t with st := w' }) ∧
    (∀ f, step s = .fault f → step { s with st := w } = .fault f) ∧
    (∀ r, step s = .refused r → step { s with st := w } = .refused r)

/-- The wait flag and keyboard_register gate no cycle and are invisible to the program: states that differ in them
alone step to outcomes that differ in them alone (40_cycle.md R109, 10_state.md R39 (e)). -/
def Obligations.WaitFlagDoesNotGateACycle : Prop :=
  ∀ (s : State) (b : Bool) (r : Reg),
    (∀ t, step s = .next t →
      ∃ b' r', step { s with waiting := b, keyReg := r } = .next { t with waiting := b', keyReg := r' }) ∧
    (∀ f, step s = .fault f → step { s with waiting := b, keyReg := r } = .fault f) ∧
    (∀ q, step s = .refused q → step { s with waiting := b, keyReg := r } = .refused q)

/-- The picture is seen through VF alone: an instruction other than a draw does the same whatever the framebuffer
holds (10_state.md R31, R39 (c)). -/
def Obligations.FramebufferIsSeenOnlyByADraw : Prop :=
  ∀ (i : Instr) (s t : State) (picture : Framebuffer), (∀ x y n, i ≠ .drwVxVyN x y n) → exec i s = .next t →
    ∃ picture', exec i { s with fb := picture } = .next { t with fb := picture' }

/-! ### Control transfer -/

/-- 1nnn, 41_flow.md R121: PC becomes the literal at 16 bits and nothing else changes. -/
def Obligations.JumpSetsPc : Prop :=
  ∀ (s : State) (nnn : Addr),
    decodeNibbles 0x1 (nnn.extractLsb' 8 4) (nnn.extractLsb' 4 4) (nnn.extractLsb' 0 4) = some (.jp nnn) ∧
    exec (.jp nnn) s = .next { s with pc := BitVec.ofNat 16 nnn.toNat }

/-- Bnnn, 41_flow.md R123: PC becomes nnn + V0, not reduced to 12 bits, with no wrap; nothing else changes. -/
def Obligations.JumpWithOffsetAddsV0 : Prop :=
  ∀ (s : State) (nnn : Addr),
    decodeNibbles 0xB (nnn.extractLsb' 8 4) (nnn.extractLsb' 4 4) (nnn.extractLsb' 0 4) = some (.jpV0Nnn nnn) ∧
    ∃ t, exec (.jpV0Nnn nnn) s = .next t ∧ t.pc.toNat = nnn.toNat + (s.readV 0).toNat ∧ t = { s with pc := t.pc }

/-- 2nnn, 41_flow.md R122: with SP below 16 the return address PC + 2 goes to stack[SP], SP rises by one, PC becomes the
literal; every other cell and all else is as before. With SP = 16 it raises StackOverflow (decision D3, log 9). -/
def Obligations.CallPushesOrOverflows : Prop :=
  ∀ (s : State) (nnn : Addr),
    (∀ h : s.sp.val < 16, ∃ t, exec (.call nnn) s = .next t ∧ t.sp.val = s.sp.val + 1 ∧
      t.stack[s.sp.val] = s.pc + 2 ∧ (∀ k : Fin 16, k.val ≠ s.sp.val → t.stack[k.val] = s.stack[k.val]) ∧
      t = { s with stack := t.stack, sp := t.sp, pc := BitVec.ofNat 16 nnn.toNat }) ∧
    (s.sp.val = 16 → exec (.call nnn) s = .next { s with fault := some .stackOverflow })

/-- 00EE, 41_flow.md R120: with SP above 0, SP falls by one and PC becomes the cell at the new SP, which keeps its
value; all else is as before. With SP = 0 it raises StackUnderflow (decision D3, log 9). -/
def Obligations.ReturnPopsOrUnderflows : Prop :=
  ∀ s : State,
    (0 < s.sp.val → ∃ t, ∃ h : t.sp.val < 16, exec .ret s = .next t ∧ t.sp.val + 1 = s.sp.val ∧
      t.pc = s.stack[t.sp.val] ∧ t = { s with sp := t.sp, pc := t.pc }) ∧
    (s.sp.val = 0 → exec .ret s = .next { s with fault := some .stackUnderflow })

/-- The stack is last-in first-out (10_state.md R29, R30): after a call from each of two places, two returns come back
to them in the opposite order, with the stack pointer as it was. -/
def Obligations.ReturnsComeBackInReverseOrder : Prop :=
  ∀ (s : State) (p q : Addr), s.sp.val ≤ 14 → ∃ t u, ∃ w z,
    exec (.call p) s = .next t ∧ exec (.call q) t = .next u ∧ exec .ret u = .next w ∧ exec .ret w = .next z ∧
    w.pc = t.pc + 2 ∧ z.pc = s.pc + 2 ∧ z.sp = s.sp

/-! ### Skips -/

/-- 3xkk, 4xkk, 5xy0, 9xy0, 42_skip.md R130 to R133: PC + 4 when the test holds, else PC + 2; nothing else changes. Which
of each pair tests for equality is decision D25 (log 14). -/
def Obligations.RegisterSkipsTestEquality : Prop :=
  ∀ (s : State) (x y : Reg) (h l : Nibble),
    decodeNibbles 0x3 (nibbleOf x) h l = some (.seVxKk x (merge h l)) ∧
    decodeNibbles 0x4 (nibbleOf x) h l = some (.sneVxKk x (merge h l)) ∧
    decodeNibbles 0x5 (nibbleOf x) (nibbleOf y) 0x0 = some (.seVxVy x y) ∧
    decodeNibbles 0x9 (nibbleOf x) (nibbleOf y) 0x0 = some (.sneVxVy x y) ∧
    (l ≠ 0x0 → decodeNibbles 0x5 (nibbleOf x) (nibbleOf y) l = none ∧
      decodeNibbles 0x9 (nibbleOf x) (nibbleOf y) l = none) ∧
    ∀ kk : Byte,
      exec (.seVxKk x kk) s = .next { s with pc := if s.readV x = kk then s.pc + 4 else s.pc + 2 } ∧
      exec (.sneVxKk x kk) s = .next { s with pc := if s.readV x ≠ kk then s.pc + 4 else s.pc + 2 } ∧
      exec (.seVxVy x y) s = .next { s with pc := if s.readV x = s.readV y then s.pc + 4 else s.pc + 2 } ∧
      exec (.sneVxVy x y) s = .next { s with pc := if s.readV x ≠ s.readV y then s.pc + 4 else s.pc + 2 }

/-- Ex9E and ExA1, 46_keyboard_timers.md R185, R186: with V[x] at most 15 they skip on the latch cell it names; above 15
they raise KeyIndexOutOfRange (decision D4, log 10). Nothing else changes. Which of the pair skips on a pressed key is
decision D25 (log 14). -/
def Obligations.KeySkipsTestTheLatch : Prop :=
  ∀ (s : State) (x : Reg),
    (∀ h : (s.readV x).toNat < 16,
      exec (.skpVx x) s =
        .next { s with pc := if s.keys[(s.readV x).toNat] = true then s.pc + 4 else s.pc + 2 } ∧
      exec (.sknpVx x) s =
        .next { s with pc := if s.keys[(s.readV x).toNat] = false then s.pc + 4 else s.pc + 2 }) ∧
    (15 < (s.readV x).toNat →
      exec (.skpVx x) s = .next { s with fault := some (.keyIndexOutOfRange (s.readV x)) } ∧
      exec (.sknpVx x) s = .next { s with fault := some (.keyIndexOutOfRange (s.readV x)) })

/-! ### Loads, arithmetic, logic, shifts, random -/

/-- 6xkk, 7xkk, 8xy0, 43_alu.md R140 to R142: the literal, the sum modulo 256 with no flag, the other register. -/
def Obligations.LoadAddLiteralAndMoveWriteOneRegister : Prop :=
  ∀ (s : State) (x y : Reg) (h l : Nibble) (kk : Byte),
    decodeNibbles 0x6 (nibbleOf x) h l = some (.ldVxKk x (merge h l)) ∧
    decodeNibbles 0x7 (nibbleOf x) h l = some (.addVxKk x (merge h l)) ∧
    decodeNibbles 0x8 (nibbleOf x) (nibbleOf y) 0x0 = some (.ldVxVy x y) ∧
    (∃ t, exec (.ldVxKk x kk) s = .next t ∧ OneRegisterWritten s t x kk) ∧
    (∃ t, exec (.addVxKk x kk) s = .next t ∧
      OneRegisterWritten s t x (BitVec.ofNat 8 (((s.readV x).toNat + kk.toNat) % 256))) ∧
    (∃ t, exec (.ldVxVy x y) s = .next t ∧ OneRegisterWritten s t x (s.readV y))

/-- 8xy1, 8xy2, 8xy3, 43_alu.md R143 to R145: bit by bit, and VF is left alone (decision D7, log
13; which is which is decision D25, log 14). -/
def Obligations.LogicActsBitByBitAndLeavesVF : Prop :=
  ∀ (s : State) (x y : Reg),
    (∃ t b, exec (.orVxVy x y) s = .next t ∧ OneRegisterWritten s t x b ∧
      ∀ k, b.getLsbD k = ((s.readV x).getLsbD k || (s.readV y).getLsbD k)) ∧
    (∃ t b, exec (.andVxVy x y) s = .next t ∧ OneRegisterWritten s t x b ∧
      ∀ k, b.getLsbD k = ((s.readV x).getLsbD k && (s.readV y).getLsbD k)) ∧
    (∃ t b, exec (.xorVxVy x y) s = .next t ∧ OneRegisterWritten s t x b ∧
      ∀ k, b.getLsbD k = ((s.readV x).getLsbD k != (s.readV y).getLsbD k))

/-- 8xy4, 43_alu.md R146: the sum modulo 256 and VF = 1 exactly when it exceeds 255, the flag last (decision D6, log
12, for x = F and y = F). -/
def Obligations.AddSetsCarry : Prop :=
  ∀ (s : State) (x y : Reg), ∃ t, exec (.addVxVy x y) s = .next t ∧
    ResultAndFlagWritten s t x (BitVec.ofNat 8 (((s.readV x).toNat + (s.readV y).toNat) % 256))
      (255 < (s.readV x).toNat + (s.readV y).toNat)

/-- 8xy5 and 8xy7, 43_alu.md R147, R149, R152: the difference modulo 256 and VF = 0 exactly on a borrow, the flag last
(decision D6, log 12; that 8xy7 is the reversed one is decision D25 and its polarity D12, log 14). -/
def Obligations.SubtractionsClearVFOnBorrow : Prop :=
  ∀ (s : State) (x y : Reg),
    (∃ t, exec (.subVxVy x y) s = .next t ∧
      ResultAndFlagWritten s t x
        (BitVec.ofNat 8 (if (s.readV y).toNat ≤ (s.readV x).toNat then (s.readV x).toNat - (s.readV y).toNat
          else (s.readV x).toNat + 256 - (s.readV y).toNat))
        ((s.readV y).toNat ≤ (s.readV x).toNat)) ∧
    (∃ t, exec (.subnVxVy x y) s = .next t ∧
      ResultAndFlagWritten s t x
        (BitVec.ofNat 8 (if (s.readV x).toNat ≤ (s.readV y).toNat then (s.readV y).toNat - (s.readV x).toNat
          else (s.readV y).toNat + 256 - (s.readV x).toNat))
        ((s.readV x).toNat ≤ (s.readV y).toNat))

/-- 8xy6 and 8xyE, 43_alu.md R148, R150: V[x] shifted one bit in place, VF the bit dropped, V[y] not read (decision D5,
log 11; decision D6, log 12). -/
def Obligations.ShiftsMoveOneBitAndKeepTheDroppedOne : Prop :=
  ∀ (s : State) (x y : Reg),
    (∃ t, exec (.shrVxVy x y) s = .next t ∧
      ResultAndFlagWritten s t x (BitVec.ofNat 8 ((s.readV x).toNat / 2)) ((s.readV x).toNat % 2 = 1)) ∧
    (∃ t, exec (.shlVxVy x y) s = .next t ∧
      ResultAndFlagWritten s t x (BitVec.ofNat 8 (2 * (s.readV x).toNat % 256)) (128 ≤ (s.readV x).toNat))

/-- Cxkk, 43_alu.md R151: V[x] is the next free byte masked by kk, whatever the byte is; one byte is taken (the count
`draws` is the model's own, log 3), no bit outside the mask is set, and nothing else changes. -/
def Obligations.RandomIsMaskedAndTakesOneByte : Prop :=
  ∀ (s : State) (x : Reg) (kk : Byte), ∃ t, exec (.rndVxKk x kk) s = .next t ∧
    t.readV x = Config.freeByte s.draws &&& kk ∧ t.readV x &&& ~~~kk = 0 ∧
    (∀ r, r ≠ x → t.readV r = s.readV r) ∧ (∀ a, t.byteAt a = s.byteAt a) ∧
    t = { s with v := t.v, pc := s.pc + 2, draws := s.draws + 1 }

/-! ### Index register and memory -/

/-- Annn, 44_index_memory.md R160: I becomes the literal at 16 bits, its top four bits 0; PC + 2; nothing else. -/
def Obligations.LoadIndexTakesTheLiteral : Prop :=
  ∀ (s : State) (nnn : Addr),
    decodeNibbles 0xA (nnn.extractLsb' 8 4) (nnn.extractLsb' 4 4) (nnn.extractLsb' 0 4) = some (.ldINnn nnn) ∧
    exec (.ldINnn nnn) s = .next { s with i := BitVec.ofNat 16 nnn.toNat, pc := s.pc + 2 }

/-- Fx1E and Fx29, 44_index_memory.md R161, R162: I + V[x] modulo 2^16 without a flag, and 5 times the whole byte
(decisions D9 and D10, log 16); VF and all else as before. -/
def Obligations.IndexSumAndGlyphAddress : Prop :=
  ∀ (s : State) (x : Reg),
    (∃ t, exec (.addIVx x) s = .next t ∧ t.i.toNat = (s.i.toNat + (s.readV x).toNat) % 65536 ∧
      t = { s with i := t.i, pc := s.pc + 2 }) ∧
    (∃ t, exec (.ldFVx x) s = .next t ∧ t.i.toNat = 5 * (s.readV x).toNat ∧
      t = { s with i := t.i, pc := s.pc + 2 })

/-- Fx33, 44_index_memory.md R163: with I + 2 at most 0xFFF, hundreds, tens and ones of V[x] go to I, I + 1, I + 2 and
nothing else changes; otherwise MemOutOfRange and nothing is written (decisions D2 and D8, logs 8 and 13). -/
def Obligations.DecimalDigitsAreStored : Prop :=
  ∀ (s : State) (x : Reg),
    (s.i.toNat + 2 ≤ 0xFFF → ∃ t d0 d1 d2, exec (.ldBVx x) s = .next t ∧
      BytesStored s t (s.indexAddr 0) [d0, d1, d2] ∧ d0.toNat ≤ 2 ∧ d1.toNat ≤ 9 ∧ d2.toNat ≤ 9 ∧
      (s.readV x).toNat = 100 * d0.toNat + 10 * d1.toNat + d2.toNat) ∧
    (0xFFF < s.i.toNat + 2 →
      exec (.ldBVx x) s = .next { s with fault := some (.memOutOfRange (max s.i.toNat 0x1000)) })

/-- Fx55, 44_index_memory.md R164: with I + x at most 0xFFF, V[k] goes to I + k for k = 0..x and nothing else changes;
otherwise MemOutOfRange and nothing is written (decisions D2 and D8, logs 8 and 13; that Fx55 is the store is D25, log 14). -/
def Obligations.BlockOfRegistersIsStored : Prop :=
  ∀ (s : State) (x : Reg),
    (s.i.toNat + x.val ≤ 0xFFF → ∃ t, exec (.ldMemVx x) s = .next t ∧
      (∀ r : Reg, r ≤ x → t.byteAt (s.indexAddr r.val) = s.readV r) ∧
      (∀ a, (a < s.indexAddr 0 ∨ s.indexAddr x.val < a) → t.byteAt a = s.byteAt a) ∧
      t = { s with mem := t.mem, pc := s.pc + 2 }) ∧
    (0xFFF < s.i.toNat + x.val →
      exec (.ldMemVx x) s = .next { s with fault := some (.memOutOfRange (max s.i.toNat 0x1000)) })

/-- Fx65, 44_index_memory.md R165: with I + x at most 0xFFF, V[k] becomes the byte at I + k for k = 0..x, registers above
x, memory and all else are as before; otherwise MemOutOfRange and no register changes (decisions D2 and D8, logs 8 and
13; that Fx65 is the load is D25, log 14). -/
def Obligations.BlockOfRegistersIsLoaded : Prop :=
  ∀ (s : State) (x : Reg),
    (s.i.toNat + x.val ≤ 0xFFF → ∃ t, exec (.ldVxMem x) s = .next t ∧
      (∀ r : Reg, r ≤ x → t.readV r = s.byteAt (s.indexAddr r.val)) ∧
      (∀ r : Reg, x < r → t.readV r = s.readV r) ∧ (∀ a, t.byteAt a = s.byteAt a) ∧
      t = { s with v := t.v, pc := s.pc + 2 }) ∧
    (0xFFF < s.i.toNat + x.val →
      exec (.ldVxMem x) s = .next { s with fault := some (.memOutOfRange (max s.i.toNat 0x1000)) })

/-- A stored byte is what the next fetch reads: a cycle that stores a word over the next instruction is followed by
that word (20_memory.md R57, R59). -/
def Obligations.NextFetchSeesTheStore : Prop :=
  ∀ s t : State, s.admitted → s.fetchInstr = .ok (.ldMemVx 1) → s.i = s.pc + 2 → s.pc.toNat ≤ 0xFFC → step s = .next t →
    t.fetchWord = .ok (wordOfBytes (s.readV 0) (s.readV 1))

/-! ### Framebuffer -/

/-- 00E0, 45_display.md R175: every pixel false, PC + 2, nothing else changes. -/
def Obligations.ClearUnlightsEveryPixel : Prop :=
  decodeNibbles 0x0 0x0 0xE 0x0 = some .cls ∧
  ∀ s : State, ∃ t, exec .cls s = .next t ∧ (∀ row col, t.pixel row col = false) ∧
    t = { s with fb := t.fb, pc := s.pc + 2 }

/-- Dxyn, 45_display.md R176 to R179: with the sprite's bytes in range, or with none (n = 0), a pixel under a sprite bit
of 1 is flipped and every other is as before, VF is 1 exactly when a lit pixel was unset, and nothing else changes; with
a byte above 0xFFF it raises MemOutOfRange and draws nothing. Bit order, wrap of every pixel and VF = 0 are decision D11
(log 15); that the coordinates are the registers before VF is written, for x = F or y = F, is decision D6 (log 12); the
range check and the unchanged I are decisions D2 and D8 (logs 8 and 13). -/
def Obligations.DrawFlipsExactlyTheCoveredPixels : Prop :=
  ∀ (s : State) (x y : Reg) (n : Nibble),
    (0 < n.toNat → 0xFFF < s.i.toNat + (n.toNat - 1) →
      exec (.drwVxVyN x y n) s = .next { s with fault := some (.memOutOfRange (max s.i.toNat 0x1000)) }) ∧
    ((n.toNat = 0 ∨ s.i.toNat + (n.toNat - 1) ≤ 0xFFF) → ∃ t, exec (.drwVxVyN x y n) s = .next t ∧
      (∀ row col, SpriteCovers s x y n row col → t.pixel row col = !s.pixel row col) ∧
      (∀ row col, ¬SpriteCovers s x y n row col → t.pixel row col = s.pixel row col) ∧
      ((∃ row col, SpriteCovers s x y n row col ∧ s.pixel row col = true) → t.readV regF = 0x01) ∧
      ((¬∃ row col, SpriteCovers s x y n row col ∧ s.pixel row col = true) → t.readV regF = 0x00) ∧
      (∀ r, r ≠ regF → t.readV r = s.readV r) ∧ (∀ a, t.byteAt a = s.byteAt a) ∧
      t = { s with fb := t.fb, v := t.v, pc := s.pc + 2 })

/-- Drawing the same sprite at the same place twice restores the picture; where the first draw collided with nothing
and the sprite has a bit of 1, the second sets VF = 1 (45_display.md R176 (g)). Where the sprite's bits fall (their order,
the wrap of every pixel) and that VF = 0 means no collision are decision D11 (log 15). The premise that neither
coordinate is VF leaves out x = F and y = F: by decision D6 (log 12) the first draw overwrites that coordinate, so the
second may land elsewhere and the law fails there; DrawFlipsExactlyTheCoveredPixels covers those forms. -/
def Obligations.DrawingTwiceRestoresThePicture : Prop :=
  ∀ (s t : State) (x y : Reg) (n : Nibble), s.good → x ≠ regF → y ≠ regF →
    exec (.drwVxVyN x y n) s = .next t → t.good →
    ∃ u, exec (.drwVxVyN x y n) t = .next u ∧ u.fb = s.fb ∧
      (t.readV regF = 0x00 → (∃ row col, SpriteCovers s x y n row col) → u.readV regF = 0x01)

/-! ### Keyboard wait and timers -/

/-- Fx0A, 46_keyboard_timers.md R187: the flag is set, keyboard_register takes the nibble x, PC goes on; V[x], the latch
and all else are as before. -/
def Obligations.KeyWaitSetsTheFlagAndGoesOn : Prop :=
  ∀ (s : State) (x : Reg),
    decodeNibbles 0xF (nibbleOf x) 0x0 0xA = some (.ldVxK x) ∧
    exec (.ldVxK x) s = .next { s with waiting := true, keyReg := x, pc := s.pc + 2 }

/-- Fx07, Fx15, Fx18, 46_keyboard_timers.md R188 to R190 (their assignment is decision D25, log 14): V[x] takes DT as it
was before this cycle's tick; DT or ST takes V[x] and is one less, or 0, at the end of the cycle. -/
def Obligations.TimerMovesReadAndWrite : Prop :=
  ∀ (s : State) (x : Reg),
    (∃ t, exec (.ldVxDt x) s = .next t ∧ OneRegisterWritten s t x s.dt) ∧
    exec (.ldDtVx x) s = .next { s with dt := s.readV x, pc := s.pc + 2 } ∧
    exec (.ldStVx x) s = .next { s with st := s.readV x, pc := s.pc + 2 } ∧
    (s.admitted → s.fetchInstr = .ok (.ldDtVx x) → ∃ t, step s = .next t ∧ t.dt.toNat = (s.readV x).toNat - 1) ∧
    (s.admitted → s.fetchInstr = .ok (.ldStVx x) → ∃ t, step s = .next t ∧ t.st.toNat = (s.readV x).toNat - 1)

/-! ### The host -/

/-- Reset, from any state (10_state.md R38, 47_host_interface.md R201): PC = 0x200, SP = 0, Idle and no fault as the
source and the spec state them; every register, timer, stack cell, pixel, key and byte 0 or false is decision D13 (logs
1 and 2), and the count of random bytes taken goes on (log 3). -/
def Obligations.ResetLeavesTheListedValues : Prop :=
  ∀ s : State, ∃ t, act .reset s = .next t ∧ t.pc = 0x0200 ∧ t.sp.val = 0 ∧ t.phase = .idle ∧ t.fault = none ∧
    (∀ r, t.readV r = 0) ∧ t.i = 0 ∧ t.dt = 0 ∧ t.st = 0 ∧ (∀ k : Fin 16, t.stack[k.val] = 0) ∧
    (∀ row col, t.pixel row col = false) ∧ (∀ k, t.keyDown k = false) ∧ t.waiting = false ∧ t.keyReg = 0 ∧
    (∀ a, t.byteAt a = 0) ∧ t.draws = s.draws

/-- The start-up sequence, whatever state it begins in (70_reset_and_hazards.md R251, 47_host_interface.md R202, R203):
after Reset, Initialize and LoadProgram the font is at 0x000, the image at 0x200, every other byte and every register as
reset left them (decisions D13 and D23, logs 1 and 2), and cycles are admitted. -/
def Obligations.StartUpLoadsFontAndImage : Prop :=
  ∀ (s : State) (font : Vector Byte 80) (image : List Byte), image.length ≤ 3584 →
    ∃ t, actAll [.reset, .initializeFont font, .loadProgram image] s = .next t ∧ t.admitted ∧ t.pc = 0x0200 ∧
      (∀ k, ∀ h : k < 80, t.byteAt k = font[k]) ∧
      (∀ k, ∀ h : k < image.length, t.byteAt (0x200 + k) = image[k]) ∧
      (∀ a, 80 ≤ a → (a < 0x200 ∨ 0x200 + image.length ≤ a) → t.byteAt a = 0) ∧
      t = { State.reset with mem := t.mem, phase := .running, draws := s.draws }

/-- LoadProgram of more than 3584 bytes copies nothing, latches ImageTooLarge and stays in Ready, and no cycle can run
(47_host_interface.md R203, 60_exceptions.md R222; the precise latch is decision D14, log 18). Initialize outside Idle,
LoadProgram outside Ready and a Cycle outside Running are refused (R212; decision D15, log 7). -/
def Obligations.LifecycleRefusesAndFaults : Prop :=
  ∀ (s : State) (font : Vector Byte 80) (image : List Byte), s.good →
    (s.phase = .ready → 3584 < image.length → ∃ t, act (.loadProgram image) s = .next t ∧
      t = { s with fault := some (.imageTooLarge image.length) } ∧ ∀ u, step t ≠ .next u) ∧
    (s.phase ≠ .idle → act (.initializeFont font) s = .refused .initializeNotIdle) ∧
    (s.phase ≠ .ready → act (.loadProgram image) s = .refused .loadNotReady) ∧
    (s.phase ≠ .running → step s = .refused .cycleNotRunning)

/-- SetKeys and ReadFramebuffer, 47_host_interface.md R205 and R207: the sixteen cells replaced in every phase and
nothing else; the whole picture seen without effect. -/
def Obligations.SetKeysAndFramebufferReads : Prop :=
  ∀ (s : State) (ks : Vector Bool 16),
    (s.good → act (.setKeys ks) s = .next { s with keys := ks }) ∧
    act .readFramebuffer s = .next s ∧ s.observedFramebuffer = s.fb

/-- KeyResolve, 47_host_interface.md R206: admitted in Running with the flag set, it writes the key index as a byte to
V[keyboard_register] and clears the flag, and changes nothing else; refused otherwise (R212; which key is the host's
choice, decision D22, log 20). -/
def Obligations.KeyResolveWritesTheWaitingRegister : Prop :=
  ∀ (s : State) (k : Fin 16), s.good →
    (s.waiting = true → s.phase = .running → ∃ t, act (.keyResolve k) s = .next t ∧
      (t.readV s.keyReg).toNat = k.val ∧ (∀ r, r ≠ s.keyReg → t.readV r = s.readV r) ∧
      t = { s with v := t.v, waiting := false }) ∧
    (s.waiting = false ∨ s.phase ≠ .running → act (.keyResolve k) s = .refused .keyResolveNotWaiting)

/-- Under the premise HostPausesOnWait a core that waits for a key stands still: until a KeyResolve or a Reset, no list
of actions of such a host changes anything but the key latch (47_host_interface.md R210 (a), 70_reset_and_hazards.md R256;
decision D22, log 20). -/
def Obligations.PausingHostFreezesAWaitingCore : Prop :=
  ∀ (actions : List HostAction) (s t : State), s.admitted → s.waiting = true →
    .reset ∉ actions → (∀ k, .keyResolve k ∉ actions) → pausesOnWait actions s = true →
    actAll actions s = .next t → t = { s with keys := t.keys }
end

