-- ==== Sys2Proof/Laws/Decode.lean ====
section
/-! SUPPORT. The laws of the bit-field helpers of the decoder and the encoder: words of two bytes, 12-bit literals,
register nibbles. -/

namespace Sys2Proof

/-- The value of a word of two bytes (R53). -/
theorem toNat_wordOfBytes (high low : Byte) : (wordOfBytes high low).toNat = 256 * high.toNat + low.toNat := by
  have e : (wordOfBytes high low).toNat = _ := BitVec.toNat_append high low
  have := low.isLt
  rw [← Nat.shiftLeft_add_eq_or_of_lt (by omega), Nat.shiftLeft_eq] at e
  omega

theorem highByte_wordOfBytes (high low : Byte) : highByte (wordOfBytes high low) = high := by
  apply BitVec.eq_of_toNat_eq
  have := low.isLt
  have := high.isLt
  simp only [highByte, BitVec.extractLsb'_toNat, toNat_wordOfBytes, Nat.shiftRight_eq_div_pow]
  omega

theorem lowByte_wordOfBytes (high low : Byte) : lowByte (wordOfBytes high low) = low := by
  apply BitVec.eq_of_toNat_eq
  have := low.isLt
  simp only [lowByte, BitVec.extractLsb'_toNat, toNat_wordOfBytes, Nat.shiftRight_eq_div_pow]
  omega

theorem wordOfBytes_high_low (op : Word) : wordOfBytes (highByte op) (lowByte op) = op := by
  apply BitVec.eq_of_toNat_eq
  have := op.isLt
  simp only [highByte, lowByte, BitVec.extractLsb'_toNat, toNat_wordOfBytes, Nat.shiftRight_eq_div_pow]
  omega

/-- A word of four nibbles is the word of its two bytes (R12). -/
theorem mergeU16_eq_wordOfBytes (n0 n1 n2 n3 : Nibble) :
    mergeU16 n0 n1 n2 n3 = wordOfBytes (merge n0 n1) (merge n2 n3) := rfl

/-- A 12-bit literal is the literal of its three nibbles (R9). -/
theorem literal12_nibbles (nnn : Addr) :
    literal12 (nnn.extractLsb' 8 4) (nnn.extractLsb' 4 4) (nnn.extractLsb' 0 4) = nnn := by
  revert nnn; decide

theorem literal12_high (n1 n2 n3 : Nibble) : (literal12 n1 n2 n3).extractLsb' 8 4 = n1 := by revert n1 n2 n3; decide

theorem literal12_mid (n1 n2 n3 : Nibble) : (literal12 n1 n2 n3).extractLsb' 4 4 = n2 := by revert n1 n2 n3; decide

theorem literal12_low (n1 n2 n3 : Nibble) : (literal12 n1 n2 n3).extractLsb' 0 4 = n3 := by revert n1 n2 n3; decide

@[simp] theorem regOf_nibbleOf (r : Reg) : regOf (nibbleOf r) = r := rfl

@[simp] theorem nibbleOf_regOf (n : Nibble) : nibbleOf (regOf n) = n := rfl

end Sys2Proof
end

