-- ==== Sys2Proof/Laws/Memory.lean ====
section
/-! SUPPORT. The laws of memory: a read after a write, the bytes of a block, and that every memory operation keeps the
canonical form `Memory.wf`. The read laws hold of every list, canonical or not. -/

namespace Sys2Proof.Machine

open Config (memSize unlistedByte)

theorem Memory.read_erase (m : List Host.Cell) (a a' : Nat) :
    Memory.read (Memory.erase m a) a' = if a' = a then unlistedByte else Memory.read m a' := by
  unfold Memory.erase
  induction m with
  | nil => simp [Memory.read]
  | cons c rest ih =>
    by_cases h : c.1 = a
    · simp only [List.filter_cons, h, bne_self_eq_false, Bool.false_eq_true, if_false, ih, Memory.read]
      by_cases h' : a' = a <;> simp [h']
      intro h''; exact absurd h''.symm h'
    · have hne : (c.1 != a) = true := by simpa using h
      simp only [List.filter_cons, hne, if_true, Memory.read, ih]
      by_cases h' : c.1 = a'
      · simp [h', h' ▸ h]
      · simp [h']

theorem Memory.read_insert (m : List Host.Cell) (a : Nat) (b : Byte) (a' : Nat) (h : ∀ c ∈ m, c.1 ≠ a) :
    Memory.read (Memory.insert m a b) a' = if a' = a then b else Memory.read m a' := by
  induction m with
  | nil => simp [Memory.insert, Memory.read, eq_comm]
  | cons c rest ih =>
    have hc : c.1 ≠ a := h c (by simp)
    have ih := ih (fun d hd => h d (by simp [hd]))
    unfold Memory.insert
    split
    · by_cases h' : a' = a
      · simp [Memory.read, h']
      · simp [Memory.read, h', Ne.symm h']
    · simp only [Memory.read, ih]
      by_cases h' : c.1 = a'
      · have : a' ≠ a := h' ▸ hc
        simp [h', this]
      · simp [h']

theorem Memory.ne_of_mem_erase {m : List Host.Cell} {a : Nat} {c : Host.Cell} (h : c ∈ Memory.erase m a) : c.1 ≠ a := by
  simpa using (List.mem_filter.mp h).2

/-- A read after a write: the byte written at its address, and every other address as before. -/
theorem Memory.read_write (m : List Host.Cell) (a : Nat) (b : Byte) (a' : Nat) :
    Memory.read (Memory.write m a b) a' = if a' = a then b else Memory.read m a' := by
  unfold Memory.write
  split
  · rename_i hb; rw [Memory.read_erase, hb]
  · rw [Memory.read_insert _ _ _ _ (fun c => Memory.ne_of_mem_erase), Memory.read_erase]
    by_cases h : a' = a <;> simp [h]

/-- Outside the bytes a block write stores, memory reads as before. -/
theorem Memory.read_writeBytes_outside (m : List Host.Cell) (base : Nat) (bytes : List Byte) (a : Nat)
    (h : a < base ∨ base + bytes.length ≤ a) : Memory.read (Memory.writeBytes m base bytes) a = Memory.read m a := by
  induction bytes generalizing m base with
  | nil => rfl
  | cons b rest ih =>
    simp only [List.length_cons] at h
    have hne : a ≠ base := by omega
    rw [Memory.writeBytes, ih _ _ (by omega), Memory.read_write, if_neg hne]

/-- Byte `k` of a block write is what its address then reads as. -/
theorem Memory.read_writeBytes_inside (m : List Host.Cell) (base : Nat) (bytes : List Byte) (k : Nat)
    (h : k < bytes.length) : Memory.read (Memory.writeBytes m base bytes) (base + k) = bytes[k] := by
  induction bytes generalizing m base k with
  | nil => simp at h
  | cons b rest ih =>
    rw [Memory.writeBytes]
    cases k with
    | zero => rw [Memory.read_writeBytes_outside _ _ _ _ (by omega), Memory.read_write]; simp
    | succ k =>
      have := ih (Memory.write m base b) (base + 1) k (by simpa using h)
      rw [show base + (k + 1) = base + 1 + k by omega, this]; rfl

@[simp] theorem Memory.length_readBytes (m : List Host.Cell) (base count : Nat) :
    (Memory.readBytes m base count).length = count := by
  induction count generalizing base with
  | zero => rfl
  | succ k ih => simp [Memory.readBytes, ih]

/-- Byte `k` of a block read is the byte at its address. -/
theorem Memory.getElem_readBytes (m : List Host.Cell) (base count k : Nat)
    (h : k < (Memory.readBytes m base count).length) :
    (Memory.readBytes m base count)[k] = Memory.read m (base + k) := by
  induction count generalizing base k with
  | zero => simp at h
  | succ n ih =>
    cases k with
    | zero => simp [Memory.readBytes]
    | succ k =>
      simp only [Memory.readBytes, List.getElem_cons_succ]
      rw [ih]; congr 1; omega

/-! ### The canonical form -/

theorem Memory.wf_cons (c : Host.Cell) (rest : List Host.Cell) :
    Memory.wf (c :: rest) = true ↔
      c.1 < memSize ∧ c.2 ≠ unlistedByte ∧ (∀ d ∈ rest, c.1 < d.1) ∧ Memory.wf rest = true := by
  simp [Memory.wf, and_assoc]

theorem Memory.wf_erase {m : List Host.Cell} (h : Memory.wf m = true) (a : Nat) : Memory.wf (Memory.erase m a) = true := by
  induction m with
  | nil => rfl
  | cons c rest ih =>
    obtain ⟨h1, h2, h3, h4⟩ := (Memory.wf_cons c rest).mp h
    unfold Memory.erase
    rw [List.filter_cons]
    split
    · exact (Memory.wf_cons _ _).mpr ⟨h1, h2, fun d hd => h3 d (List.mem_filter.mp hd).1, ih h4⟩
    · exact ih h4

theorem Memory.mem_insert {m : List Host.Cell} {a : Nat} {b : Byte} {d : Host.Cell} (h : d ∈ Memory.insert m a b) :
    d = (a, b) ∨ d ∈ m := by
  induction m with
  | nil => simpa [Memory.insert] using h
  | cons c rest ih =>
    unfold Memory.insert at h
    split at h
    · simpa using h
    · rcases List.mem_cons.mp h with h | h
      · simp [h]
      · rcases ih h with h | h <;> simp [h]

theorem Memory.wf_insert {m : List Host.Cell} (h : Memory.wf m = true) {a : Nat} (ha : a < memSize) {b : Byte}
    (hb : b ≠ unlistedByte) (hn : ∀ c ∈ m, c.1 ≠ a) : Memory.wf (Memory.insert m a b) = true := by
  induction m with
  | nil => simpa [Memory.insert, Memory.wf] using ⟨ha, hb⟩
  | cons c rest ih =>
    obtain ⟨h1, h2, h3, h4⟩ := (Memory.wf_cons c rest).mp h
    have hc : c.1 ≠ a := hn c (by simp)
    unfold Memory.insert
    split
    · rename_i hlt
      refine (Memory.wf_cons _ _).mpr ⟨ha, hb, fun d hd => ?_, h⟩
      rcases List.mem_cons.mp hd with rfl | hd
      · exact hlt
      · exact Nat.lt_trans hlt (h3 d hd)
    · refine (Memory.wf_cons _ _).mpr ⟨h1, h2, fun d hd => ?_, ih h4 (fun d hd => hn d (by simp [hd]))⟩
      rcases Memory.mem_insert hd with rfl | hd
      · exact Nat.lt_of_le_of_ne (by omega) hc
      · exact h3 d hd

/-- A write at an address that exists keeps the canonical form. -/
theorem Memory.wf_write {m : List Host.Cell} (h : Memory.wf m = true) {a : Nat} (ha : a < memSize) (b : Byte) :
    Memory.wf (Memory.write m a b) = true := by
  unfold Memory.write
  split
  · exact Memory.wf_erase h a
  · rename_i hb
    exact Memory.wf_insert (Memory.wf_erase h a) ha hb (fun c => Memory.ne_of_mem_erase)

/-- A block write inside the address space keeps the canonical form. -/
theorem Memory.wf_writeBytes {m : List Host.Cell} (h : Memory.wf m = true) (base : Nat) (bytes : List Byte)
    (hb : base + bytes.length ≤ memSize) : Memory.wf (Memory.writeBytes m base bytes) = true := by
  induction bytes generalizing m base with
  | nil => exact h
  | cons b rest ih =>
    simp only [List.length_cons] at hb
    exact ih (Memory.wf_write h (by omega) b) _ (by omega)

end Sys2Proof.Machine
end

