-- ==== Sys2Proof/Laws/State.lean ====
section
/-! SUPPORT. One lemma for each field of the state under each named update of it, so that no later proof unfolds a
record update. -/

namespace Sys2Proof.Machine

variable (s : State)

/-! ### writeV -/

@[simp] theorem State.writeV_mem (x : Reg) (b : Byte) : (s.writeV x b).mem = s.mem := rfl
@[simp] theorem State.writeV_v (x : Reg) (b : Byte) : (s.writeV x b).v = s.v.set x.val b x.isLt := rfl
@[simp] theorem State.writeV_i (x : Reg) (b : Byte) : (s.writeV x b).i = s.i := rfl
@[simp] theorem State.writeV_pc (x : Reg) (b : Byte) : (s.writeV x b).pc = s.pc := rfl
@[simp] theorem State.writeV_dt (x : Reg) (b : Byte) : (s.writeV x b).dt = s.dt := rfl
@[simp] theorem State.writeV_st (x : Reg) (b : Byte) : (s.writeV x b).st = s.st := rfl
@[simp] theorem State.writeV_stack (x : Reg) (b : Byte) : (s.writeV x b).stack = s.stack := rfl
@[simp] theorem State.writeV_sp (x : Reg) (b : Byte) : (s.writeV x b).sp = s.sp := rfl
@[simp] theorem State.writeV_fb (x : Reg) (b : Byte) : (s.writeV x b).fb = s.fb := rfl
@[simp] theorem State.writeV_keys (x : Reg) (b : Byte) : (s.writeV x b).keys = s.keys := rfl
@[simp] theorem State.writeV_waiting (x : Reg) (b : Byte) : (s.writeV x b).waiting = s.waiting := rfl
@[simp] theorem State.writeV_keyReg (x : Reg) (b : Byte) : (s.writeV x b).keyReg = s.keyReg := rfl
@[simp] theorem State.writeV_phase (x : Reg) (b : Byte) : (s.writeV x b).phase = s.phase := rfl
@[simp] theorem State.writeV_fault (x : Reg) (b : Byte) : (s.writeV x b).fault = s.fault := rfl
@[simp] theorem State.writeV_draws (x : Reg) (b : Byte) : (s.writeV x b).draws = s.draws := rfl

/-! ### writeI -/

@[simp] theorem State.writeI_mem (w : Word) : (s.writeI w).mem = s.mem := rfl
@[simp] theorem State.writeI_v (w : Word) : (s.writeI w).v = s.v := rfl
@[simp] theorem State.writeI_i (w : Word) : (s.writeI w).i = w := rfl
@[simp] theorem State.writeI_pc (w : Word) : (s.writeI w).pc = s.pc := rfl
@[simp] theorem State.writeI_dt (w : Word) : (s.writeI w).dt = s.dt := rfl
@[simp] theorem State.writeI_st (w : Word) : (s.writeI w).st = s.st := rfl
@[simp] theorem State.writeI_stack (w : Word) : (s.writeI w).stack = s.stack := rfl
@[simp] theorem State.writeI_sp (w : Word) : (s.writeI w).sp = s.sp := rfl
@[simp] theorem State.writeI_fb (w : Word) : (s.writeI w).fb = s.fb := rfl
@[simp] theorem State.writeI_keys (w : Word) : (s.writeI w).keys = s.keys := rfl
@[simp] theorem State.writeI_waiting (w : Word) : (s.writeI w).waiting = s.waiting := rfl
@[simp] theorem State.writeI_keyReg (w : Word) : (s.writeI w).keyReg = s.keyReg := rfl
@[simp] theorem State.writeI_phase (w : Word) : (s.writeI w).phase = s.phase := rfl
@[simp] theorem State.writeI_fault (w : Word) : (s.writeI w).fault = s.fault := rfl
@[simp] theorem State.writeI_draws (w : Word) : (s.writeI w).draws = s.draws := rfl

/-! ### advance -/

@[simp] theorem State.advance_mem : s.advance.mem = s.mem := rfl
@[simp] theorem State.advance_v : s.advance.v = s.v := rfl
@[simp] theorem State.advance_i : s.advance.i = s.i := rfl
@[simp] theorem State.advance_pc : s.advance.pc = s.pc + 2 := rfl
@[simp] theorem State.advance_dt : s.advance.dt = s.dt := rfl
@[simp] theorem State.advance_st : s.advance.st = s.st := rfl
@[simp] theorem State.advance_stack : s.advance.stack = s.stack := rfl
@[simp] theorem State.advance_sp : s.advance.sp = s.sp := rfl
@[simp] theorem State.advance_fb : s.advance.fb = s.fb := rfl
@[simp] theorem State.advance_keys : s.advance.keys = s.keys := rfl
@[simp] theorem State.advance_waiting : s.advance.waiting = s.waiting := rfl
@[simp] theorem State.advance_keyReg : s.advance.keyReg = s.keyReg := rfl
@[simp] theorem State.advance_phase : s.advance.phase = s.phase := rfl
@[simp] theorem State.advance_fault : s.advance.fault = s.fault := rfl
@[simp] theorem State.advance_draws : s.advance.draws = s.draws := rfl

/-! ### skipWhen -/

@[simp] theorem State.skipWhen_mem (c : Bool) : (s.skipWhen c).mem = s.mem := rfl
@[simp] theorem State.skipWhen_v (c : Bool) : (s.skipWhen c).v = s.v := rfl
@[simp] theorem State.skipWhen_i (c : Bool) : (s.skipWhen c).i = s.i := rfl
@[simp] theorem State.skipWhen_pc (c : Bool) : (s.skipWhen c).pc = if c then s.pc + 4 else s.pc + 2 := rfl
@[simp] theorem State.skipWhen_dt (c : Bool) : (s.skipWhen c).dt = s.dt := rfl
@[simp] theorem State.skipWhen_st (c : Bool) : (s.skipWhen c).st = s.st := rfl
@[simp] theorem State.skipWhen_stack (c : Bool) : (s.skipWhen c).stack = s.stack := rfl
@[simp] theorem State.skipWhen_sp (c : Bool) : (s.skipWhen c).sp = s.sp := rfl
@[simp] theorem State.skipWhen_fb (c : Bool) : (s.skipWhen c).fb = s.fb := rfl
@[simp] theorem State.skipWhen_keys (c : Bool) : (s.skipWhen c).keys = s.keys := rfl
@[simp] theorem State.skipWhen_waiting (c : Bool) : (s.skipWhen c).waiting = s.waiting := rfl
@[simp] theorem State.skipWhen_keyReg (c : Bool) : (s.skipWhen c).keyReg = s.keyReg := rfl
@[simp] theorem State.skipWhen_phase (c : Bool) : (s.skipWhen c).phase = s.phase := rfl
@[simp] theorem State.skipWhen_fault (c : Bool) : (s.skipWhen c).fault = s.fault := rfl
@[simp] theorem State.skipWhen_draws (c : Bool) : (s.skipWhen c).draws = s.draws := rfl

/-! ### jumpTo -/

@[simp] theorem State.jumpTo_mem (w : Word) : (s.jumpTo w).mem = s.mem := rfl
@[simp] theorem State.jumpTo_v (w : Word) : (s.jumpTo w).v = s.v := rfl
@[simp] theorem State.jumpTo_i (w : Word) : (s.jumpTo w).i = s.i := rfl
@[simp] theorem State.jumpTo_pc (w : Word) : (s.jumpTo w).pc = w := rfl
@[simp] theorem State.jumpTo_dt (w : Word) : (s.jumpTo w).dt = s.dt := rfl
@[simp] theorem State.jumpTo_st (w : Word) : (s.jumpTo w).st = s.st := rfl
@[simp] theorem State.jumpTo_stack (w : Word) : (s.jumpTo w).stack = s.stack := rfl
@[simp] theorem State.jumpTo_sp (w : Word) : (s.jumpTo w).sp = s.sp := rfl
@[simp] theorem State.jumpTo_fb (w : Word) : (s.jumpTo w).fb = s.fb := rfl
@[simp] theorem State.jumpTo_keys (w : Word) : (s.jumpTo w).keys = s.keys := rfl
@[simp] theorem State.jumpTo_waiting (w : Word) : (s.jumpTo w).waiting = s.waiting := rfl
@[simp] theorem State.jumpTo_keyReg (w : Word) : (s.jumpTo w).keyReg = s.keyReg := rfl
@[simp] theorem State.jumpTo_phase (w : Word) : (s.jumpTo w).phase = s.phase := rfl
@[simp] theorem State.jumpTo_fault (w : Word) : (s.jumpTo w).fault = s.fault := rfl
@[simp] theorem State.jumpTo_draws (w : Word) : (s.jumpTo w).draws = s.draws := rfl

/-! ### tick -/

@[simp] theorem State.tick_mem : s.tick.mem = s.mem := rfl
@[simp] theorem State.tick_v : s.tick.v = s.v := rfl
@[simp] theorem State.tick_i : s.tick.i = s.i := rfl
@[simp] theorem State.tick_pc : s.tick.pc = s.pc := rfl
@[simp] theorem State.tick_dt : s.tick.dt = tickTimer s.dt := rfl
@[simp] theorem State.tick_st : s.tick.st = tickTimer s.st := rfl
@[simp] theorem State.tick_stack : s.tick.stack = s.stack := rfl
@[simp] theorem State.tick_sp : s.tick.sp = s.sp := rfl
@[simp] theorem State.tick_fb : s.tick.fb = s.fb := rfl
@[simp] theorem State.tick_keys : s.tick.keys = s.keys := rfl
@[simp] theorem State.tick_waiting : s.tick.waiting = s.waiting := rfl
@[simp] theorem State.tick_keyReg : s.tick.keyReg = s.keyReg := rfl
@[simp] theorem State.tick_phase : s.tick.phase = s.phase := rfl
@[simp] theorem State.tick_fault : s.tick.fault = s.fault := rfl
@[simp] theorem State.tick_draws : s.tick.draws = s.draws := rfl

/-! ### writeBlockRegs -/

@[simp] theorem State.writeBlockRegs_mem (l : List Byte) : (s.writeBlockRegs l).mem = s.mem := rfl
@[simp] theorem State.writeBlockRegs_v (l : List Byte) : (s.writeBlockRegs l).v = writeRegsFrom s.v 0 l := rfl
@[simp] theorem State.writeBlockRegs_i (l : List Byte) : (s.writeBlockRegs l).i = s.i := rfl
@[simp] theorem State.writeBlockRegs_pc (l : List Byte) : (s.writeBlockRegs l).pc = s.pc := rfl
@[simp] theorem State.writeBlockRegs_dt (l : List Byte) : (s.writeBlockRegs l).dt = s.dt := rfl
@[simp] theorem State.writeBlockRegs_st (l : List Byte) : (s.writeBlockRegs l).st = s.st := rfl
@[simp] theorem State.writeBlockRegs_stack (l : List Byte) : (s.writeBlockRegs l).stack = s.stack := rfl
@[simp] theorem State.writeBlockRegs_sp (l : List Byte) : (s.writeBlockRegs l).sp = s.sp := rfl
@[simp] theorem State.writeBlockRegs_fb (l : List Byte) : (s.writeBlockRegs l).fb = s.fb := rfl
@[simp] theorem State.writeBlockRegs_keys (l : List Byte) : (s.writeBlockRegs l).keys = s.keys := rfl
@[simp] theorem State.writeBlockRegs_waiting (l : List Byte) : (s.writeBlockRegs l).waiting = s.waiting := rfl
@[simp] theorem State.writeBlockRegs_keyReg (l : List Byte) : (s.writeBlockRegs l).keyReg = s.keyReg := rfl
@[simp] theorem State.writeBlockRegs_phase (l : List Byte) : (s.writeBlockRegs l).phase = s.phase := rfl
@[simp] theorem State.writeBlockRegs_fault (l : List Byte) : (s.writeBlockRegs l).fault = s.fault := rfl
@[simp] theorem State.writeBlockRegs_draws (l : List Byte) : (s.writeBlockRegs l).draws = s.draws := rfl

/-! ### writeResultFlag -/

@[simp] theorem State.writeResultFlag_mem (x : Reg) (b : Byte) (f : Bool) : (s.writeResultFlag x b f).mem = s.mem := rfl
@[simp] theorem State.writeResultFlag_v (x : Reg) (b : Byte) (f : Bool) : (s.writeResultFlag x b f).v = (s.v.set x.val b x.isLt).set 15 (flagByte f) := rfl
@[simp] theorem State.writeResultFlag_i (x : Reg) (b : Byte) (f : Bool) : (s.writeResultFlag x b f).i = s.i := rfl
@[simp] theorem State.writeResultFlag_pc (x : Reg) (b : Byte) (f : Bool) : (s.writeResultFlag x b f).pc = s.pc := rfl
@[simp] theorem State.writeResultFlag_dt (x : Reg) (b : Byte) (f : Bool) : (s.writeResultFlag x b f).dt = s.dt := rfl
@[simp] theorem State.writeResultFlag_st (x : Reg) (b : Byte) (f : Bool) : (s.writeResultFlag x b f).st = s.st := rfl
@[simp] theorem State.writeResultFlag_stack (x : Reg) (b : Byte) (f : Bool) : (s.writeResultFlag x b f).stack = s.stack := rfl
@[simp] theorem State.writeResultFlag_sp (x : Reg) (b : Byte) (f : Bool) : (s.writeResultFlag x b f).sp = s.sp := rfl
@[simp] theorem State.writeResultFlag_fb (x : Reg) (b : Byte) (f : Bool) : (s.writeResultFlag x b f).fb = s.fb := rfl
@[simp] theorem State.writeResultFlag_keys (x : Reg) (b : Byte) (f : Bool) : (s.writeResultFlag x b f).keys = s.keys := rfl
@[simp] theorem State.writeResultFlag_waiting (x : Reg) (b : Byte) (f : Bool) : (s.writeResultFlag x b f).waiting = s.waiting := rfl
@[simp] theorem State.writeResultFlag_keyReg (x : Reg) (b : Byte) (f : Bool) : (s.writeResultFlag x b f).keyReg = s.keyReg := rfl
@[simp] theorem State.writeResultFlag_phase (x : Reg) (b : Byte) (f : Bool) : (s.writeResultFlag x b f).phase = s.phase := rfl
@[simp] theorem State.writeResultFlag_fault (x : Reg) (b : Byte) (f : Bool) : (s.writeResultFlag x b f).fault = s.fault := rfl
@[simp] theorem State.writeResultFlag_draws (x : Reg) (b : Byte) (f : Bool) : (s.writeResultFlag x b f).draws = s.draws := rfl

/-! ### showBlit -/

@[simp] theorem State.showBlit_mem (d : Blit) : (s.showBlit d).mem = s.mem := rfl
@[simp] theorem State.showBlit_v (d : Blit) : (s.showBlit d).v = s.v.set 15 (flagByte d.hit) := rfl
@[simp] theorem State.showBlit_i (d : Blit) : (s.showBlit d).i = s.i := rfl
@[simp] theorem State.showBlit_pc (d : Blit) : (s.showBlit d).pc = s.pc := rfl
@[simp] theorem State.showBlit_dt (d : Blit) : (s.showBlit d).dt = s.dt := rfl
@[simp] theorem State.showBlit_st (d : Blit) : (s.showBlit d).st = s.st := rfl
@[simp] theorem State.showBlit_stack (d : Blit) : (s.showBlit d).stack = s.stack := rfl
@[simp] theorem State.showBlit_sp (d : Blit) : (s.showBlit d).sp = s.sp := rfl
@[simp] theorem State.showBlit_fb (d : Blit) : (s.showBlit d).fb = d.fb := rfl
@[simp] theorem State.showBlit_keys (d : Blit) : (s.showBlit d).keys = s.keys := rfl
@[simp] theorem State.showBlit_waiting (d : Blit) : (s.showBlit d).waiting = s.waiting := rfl
@[simp] theorem State.showBlit_keyReg (d : Blit) : (s.showBlit d).keyReg = s.keyReg := rfl
@[simp] theorem State.showBlit_phase (d : Blit) : (s.showBlit d).phase = s.phase := rfl
@[simp] theorem State.showBlit_fault (d : Blit) : (s.showBlit d).fault = s.fault := rfl
@[simp] theorem State.showBlit_draws (d : Blit) : (s.showBlit d).draws = s.draws := rfl

/-! ### drawByte -/

@[simp] theorem State.drawByte_fst : s.drawByte.1 = Config.freeByte s.draws := rfl
@[simp] theorem State.drawByte_mem : s.drawByte.2.mem = s.mem := rfl
@[simp] theorem State.drawByte_v : s.drawByte.2.v = s.v := rfl
@[simp] theorem State.drawByte_i : s.drawByte.2.i = s.i := rfl
@[simp] theorem State.drawByte_pc : s.drawByte.2.pc = s.pc := rfl
@[simp] theorem State.drawByte_dt : s.drawByte.2.dt = s.dt := rfl
@[simp] theorem State.drawByte_st : s.drawByte.2.st = s.st := rfl
@[simp] theorem State.drawByte_stack : s.drawByte.2.stack = s.stack := rfl
@[simp] theorem State.drawByte_sp : s.drawByte.2.sp = s.sp := rfl
@[simp] theorem State.drawByte_fb : s.drawByte.2.fb = s.fb := rfl
@[simp] theorem State.drawByte_keys : s.drawByte.2.keys = s.keys := rfl
@[simp] theorem State.drawByte_waiting : s.drawByte.2.waiting = s.waiting := rfl
@[simp] theorem State.drawByte_keyReg : s.drawByte.2.keyReg = s.keyReg := rfl
@[simp] theorem State.drawByte_phase : s.drawByte.2.phase = s.phase := rfl
@[simp] theorem State.drawByte_fault : s.drawByte.2.fault = s.fault := rfl
@[simp] theorem State.drawByte_draws : s.drawByte.2.draws = s.draws + 1 := rfl

end Sys2Proof.Machine
end

