-- ==== Sys2Proof/Laws/Ops.lean ====
section
/-! SUPPORT. One lemma for each shared operation that says everything it can do; the provers cite these instead of
unfolding the operation. -/

namespace Sys2Proof.Machine

/-! ### Registers -/

@[simp] theorem State.readV_writeV_same (s : State) (x : Reg) (b : Byte) : (s.writeV x b).readV x = b := by
  simp [State.readV]

theorem State.readV_writeV_other (s : State) {x r : Reg} (b : Byte) (h : r ≠ x) :
    (s.writeV x b).readV r = s.readV r := by
  have : x.val ≠ r.val := fun e => h (Fin.ext e.symm)
  simp [State.readV, this]

theorem State.readV_writeV (s : State) (x r : Reg) (b : Byte) :
    (s.writeV x b).readV r = if r = x then b else s.readV r := by
  by_cases h : r = x
  · subst h; simp
  · simp [h, State.readV_writeV_other s b h]

/-- Reading a register after a result and its flag: VF is the flag, whatever `x` is (R153). -/
theorem State.readV_writeResultFlag (s : State) (x r : Reg) (b : Byte) (f : Bool) :
    (s.writeResultFlag x b f).readV r = if r = regF then flagByte f else if r = x then b else s.readV r := by
  unfold State.writeResultFlag
  rw [State.readV_writeV, State.readV_writeV]

theorem State.readV_congr {s t : State} (h : t.v = s.v) (r : Reg) : t.readV r = s.readV r := by
  simp [State.readV, h]

@[simp] theorem State.readV_advance (s : State) (r : Reg) : s.advance.readV r = s.readV r := rfl

theorem State.byteAt_congr {s t : State} (h : t.mem = s.mem) (a : Nat) : t.byteAt a = s.byteAt a := by
  simp [State.byteAt, h]

@[simp] theorem State.length_blockRegs (s : State) (x : Reg) : (s.blockRegs x).length = x.val + 1 := by
  have := x.isLt
  simp [State.blockRegs]

/-- Byte `k` of the block is `V[k]` (R164). -/
theorem State.getElem_blockRegs (s : State) (x : Reg) (k : Nat) (h : k < (s.blockRegs x).length) :
    (s.blockRegs x)[k] = s.v[k]'(by have := x.isLt; simp at h; omega) := by
  simp [State.blockRegs]

/-- Register `j` after bytes are written from `k` upward (R165). -/
theorem getElem_writeRegsFrom (v : Vector Byte 16) (k : Nat) (bytes : List Byte) (j : Nat) (hj : j < 16) :
    (writeRegsFrom v k bytes)[j] = if h : k ≤ j ∧ j - k < bytes.length then bytes[j - k]'h.2 else v[j] := by
  induction bytes generalizing v k with
  | nil => simp [writeRegsFrom]
  | cons b rest ih =>
    rw [writeRegsFrom, ih]
    by_cases h1 : k + 1 ≤ j ∧ j - (k + 1) < rest.length
    · have e : j - k = j - (k + 1) + 1 := by omega
      have h2 : k ≤ j ∧ j - k < (b :: rest).length := by simp; omega
      rw [dif_pos h1, dif_pos h2]
      simp [e]
    · rw [dif_neg h1, Vector.getElem_setIfInBounds]
      by_cases hk : k = j
      · subst hk; simp
      · rw [if_neg hk, dif_neg]
        simp only [List.length_cons]
        omega

/-! ### Checked memory accesses and faults -/

/-- The range check passes exactly when no byte is wanted or the highest is at most 0xFFF (R61). -/
theorem rangeFault_none_iff (base count : Nat) : rangeFault base count = none ↔ count = 0 ∨ base + count ≤ 0x1000 := by
  unfold rangeFault
  split <;> simp <;> omega

theorem rangeFault_some {base count : Nat} (hc : 0 < count) (h : 0x1000 < base + count) :
    rangeFault base count = some (.memOutOfRange (max base 0x1000)) := by
  unfold rangeFault
  rw [if_pos (by omega)]

theorem State.loadBytes_ok {s : State} {base count : Nat} (h : count = 0 ∨ base + count ≤ 0x1000) :
    s.loadBytes base count = .ok (Memory.readBytes s.mem base count) := by
  simp [State.loadBytes, (rangeFault_none_iff base count).mpr h]

theorem State.loadBytes_error {s : State} {base count : Nat} (hc : 0 < count) (h : 0x1000 < base + count) :
    s.loadBytes base count = .error (.memOutOfRange (max base 0x1000)) := by
  simp [State.loadBytes, rangeFault_some hc h]

theorem State.storeBytes_ok {s : State} {base : Nat} {bytes : List Byte} (h : base + bytes.length ≤ 0x1000) :
    s.storeBytes base bytes = .ok { s with mem := Memory.writeBytes s.mem base bytes } := by
  simp [State.storeBytes, (rangeFault_none_iff base bytes.length).mpr (.inr h)]

theorem State.storeBytes_error {s : State} {base : Nat} {bytes : List Byte} (hc : 0 < bytes.length)
    (h : 0x1000 < base + bytes.length) : s.storeBytes base bytes = .error (.memOutOfRange (max base 0x1000)) := by
  simp [State.storeBytes, rangeFault_some hc h]

/-- All a checked load can answer. -/
theorem State.loadBytes_cases (s : State) (base count : Nat) :
    ((count = 0 ∨ base + count ≤ 0x1000) ∧ s.loadBytes base count = .ok (Memory.readBytes s.mem base count)) ∨
    ((0 < count ∧ 0x1000 < base + count) ∧ s.loadBytes base count = .error (.memOutOfRange (max base 0x1000))) := by
  by_cases h : count = 0 ∨ base + count ≤ 0x1000
  · exact .inl ⟨h, State.loadBytes_ok h⟩
  · exact .inr ⟨by omega, State.loadBytes_error (by omega) (by omega)⟩

/-- All a checked store of at least one byte can answer. -/
theorem State.storeBytes_cases (s : State) (base : Nat) (bytes : List Byte) (hc : 0 < bytes.length) :
    (base + bytes.length ≤ 0x1000 ∧
      s.storeBytes base bytes = .ok { s with mem := Memory.writeBytes s.mem base bytes }) ∨
    (0x1000 < base + bytes.length ∧ s.storeBytes base bytes = .error (.memOutOfRange (max base 0x1000))) := by
  by_cases h : base + bytes.length ≤ 0x1000
  · exact .inl ⟨h, State.storeBytes_ok h⟩
  · exact .inr ⟨by omega, State.storeBytes_error hc (by omega)⟩

/-- A checked store keeps the canonical form. -/
theorem State.wf_storeBytes {s t : State} {base : Nat} {bytes : List Byte} (h : Memory.wf s.mem = true)
    (e : s.storeBytes base bytes = .ok t) : Memory.wf t.mem = true := by
  unfold State.storeBytes at e
  cases hr : rangeFault base bytes.length with
  | some f => rw [hr] at e; cases e
  | none =>
    rw [hr] at e
    cases e
    rcases (rangeFault_none_iff base bytes.length).mp hr with hz | hb
    · rw [List.length_eq_zero_iff.mp hz]; exact h
    · exact Memory.wf_writeBytes h _ _ hb

/-- Placing a word keeps the canonical form. -/
theorem State.wf_placeWord {s : State} (h : Memory.wf s.mem = true) (op : Word) :
    Memory.wf (s.placeWord op).mem = true := by
  refine Memory.wf_writeBytes h _ _ ?_
  show (if s.pc.toNat ≤ 0xFFE then s.pc else BitVec.ofNat 16 Config.progBase).toNat + 2 ≤ 4096
  split
  · omega
  · decide

/-- The reset state's memory is in the canonical form. -/
theorem State.wf_reset : Memory.wf State.reset.mem = true := rfl

@[simp] theorem State.raise_eq (s : State) (f : Fault) : s.raise f = .next { s with fault := some f } := rfl

@[simp] theorem State.orRaise_ok {α : Type} (s : State) (a : α) (k : α → State) : s.orRaise (.ok a) k = .next (k a) :=
  rfl

@[simp] theorem State.orRaise_error {α : Type} (s : State) (f : Fault) (k : α → State) :
    s.orRaise (.error f) k = .next { s with fault := some f } := rfl

/-- All a checked operation can answer: the fault latched and nothing else changed, or what follows it (R108). -/
theorem State.orRaise_next {α : Type} {s t : State} {r : Except Fault α} {k : α → State}
    (h : s.orRaise r k = .next t) :
    (∃ f, r = .error f ∧ t = { s with fault := some f }) ∨ (∃ a, r = .ok a ∧ t = k a) := by
  cases r with
  | error f => exact .inl ⟨f, rfl, by simpa using h.symm⟩
  | ok a => exact .inr ⟨a, rfl, by simpa using h.symm⟩

/-! ### The stack -/

/-- All a push can answer (R29). -/
theorem State.push_cases (s : State) (w : Word) :
    (∃ h : s.sp.val < 16, s.push w =
      .ok { s with stack := s.stack.set s.sp.val w h, sp := ⟨s.sp.val + 1, Nat.succ_lt_succ h⟩ }) ∨
    (s.sp.val = 16 ∧ s.push w = .error .stackOverflow) := by
  have := s.sp.isLt
  by_cases h : s.sp.val < 16
  · exact .inl ⟨h, by simp [State.push, h]⟩
  · exact .inr ⟨by omega, by simp [State.push, h]⟩

/-- All a pop can answer (R30). -/
theorem State.pop_cases (s : State) :
    (∃ h : 0 < s.sp.val, s.pop =
      .ok (s.stack[s.sp.val - 1]'(by have := s.sp.isLt; omega),
        { s with sp := ⟨s.sp.val - 1, Nat.lt_of_le_of_lt (Nat.sub_le _ _) s.sp.isLt⟩ })) ∨
    (s.sp.val = 0 ∧ s.pop = .error .stackUnderflow) := by
  by_cases h : 0 < s.sp.val
  · exact .inl ⟨h, by simp [State.pop, h]⟩
  · exact .inr ⟨by omega, by simp [State.pop, h]⟩

/-! ### Keys -/

/-- All a key operand can answer (R185, R226). -/
theorem State.keyOperand_cases (s : State) (x : Reg) :
    (∃ h : (s.readV x).toNat < 16, s.keyOperand x = .ok ⟨(s.readV x).toNat, h⟩) ∨
    (16 ≤ (s.readV x).toNat ∧ s.keyOperand x = .error (.keyIndexOutOfRange (s.readV x))) := by
  by_cases h : (s.readV x).toNat < 16
  · exact .inl ⟨h, by simp [State.keyOperand, h]⟩
  · exact .inr ⟨by omega, by simp [State.keyOperand, h]⟩

/-! ### The framebuffer -/

/-- A flip changes its own pixel and no other (R176). -/
theorem pixelOf_flipPixel (fb : Framebuffer) (row row' : Fin 32) (col col' : Fin 64) :
    pixelOf (flipPixel fb row col) row' col' =
      if row' = row ∧ col' = col then !pixelOf fb row col else pixelOf fb row' col' := by
  unfold pixelOf flipPixel
  rw [Vector.getElem_set]
  by_cases hr : row = row'
  · subst hr
    rw [if_pos rfl, Vector.getElem_set]
    by_cases hc : col = col'
    · subst hc; simp [pixelOf]
    · have : col.val ≠ col'.val := fun e => hc (Fin.ext e)
      simp [this, Ne.symm hc]
  · have : row.val ≠ row'.val := fun e => hr (Fin.ext e)
    simp [this, Ne.symm hr]

@[simp] theorem pixelOf_clear (row : Fin 32) (col : Fin 64) : pixelOf clearFramebuffer row col = false := by
  simp [pixelOf, clearFramebuffer]

/-! ### The cycle -/

/-- Admission in phase Running with no fault (R100). -/
theorem State.cycleBar_none_iff (s : State) : s.cycleBar = none ↔ s.phase = .running ∧ s.fault = none := by
  unfold State.cycleBar
  cases hf : s.fault with
  | none => by_cases hp : s.phase = .running <;> simp [hp]
  | some f => simp

/-- All fetch and decode can answer in a state whose PC can be fetched from (R101 to R103). -/
theorem State.fetchInstr_cases (s : State) :
    (0xFFE < s.pc.toNat ∧ s.fetchInstr = .error (.memOutOfRange (max s.pc.toNat 0x1000))) ∨
    (s.pc.toNat ≤ 0xFFE ∧
      ((decodeWord (wordOfBytes (s.byteAt s.pc.toNat) (s.byteAt (s.pc.toNat + 1))) = none ∧
        s.fetchInstr = .error
          (.illegalOpcode (wordOfBytes (s.byteAt s.pc.toNat) (s.byteAt (s.pc.toNat + 1))) s.pc)) ∨
      ∃ i, decodeWord (wordOfBytes (s.byteAt s.pc.toNat) (s.byteAt (s.pc.toNat + 1))) = some i ∧
        s.fetchInstr = .ok i)) := by
  by_cases h : 0xFFE < s.pc.toNat
  · exact .inl ⟨h, by simp [State.fetchInstr, State.fetchWord, rangeFault_some (base := s.pc.toNat) (count := 2)
      (by omega) (by omega)]⟩
  · refine .inr ⟨by omega, ?_⟩
    have hw : s.fetchWord = .ok (wordOfBytes (s.byteAt s.pc.toNat) (s.byteAt (s.pc.toNat + 1))) := by
      simp [State.fetchWord, (rangeFault_none_iff s.pc.toNat 2).mpr (.inr (by omega))]
    cases hd : decodeWord (wordOfBytes (s.byteAt s.pc.toNat) (s.byteAt (s.pc.toNat + 1))) with
    | none => exact .inl ⟨rfl, by simp [State.fetchInstr, hw, hd]⟩
    | some i => exact .inr ⟨i, rfl, by simp [State.fetchInstr, hw, hd]⟩

/-- All a step that answers a next state can have done (R101, R108): fetch or decode raised; or the execute stage of
the decoded instruction answered a state, which is ticked unless it is faulted. -/
theorem step_next {s t : State} (h : step s = .next t) :
    s.phase = .running ∧ s.fault = none ∧
      ((∃ f, s.fetchInstr = .error f ∧ t = { s with fault := some f }) ∨
       (∃ i u, s.fetchInstr = .ok i ∧ exec i s = .next u ∧ t = if u.fault = none then u.tick else u)) := by
  unfold step cycle at h
  cases hb : s.cycleBar with
  | some o =>
    rw [hb] at h
    simp only at h
    unfold State.cycleBar at hb
    cases hf : s.fault with
    | some f => rw [hf] at hb; simp at hb; rw [← hb] at h; cases h
    | none =>
      rw [hf] at hb
      by_cases hp : s.phase = .running
      · simp [hp] at hb
      · simp [hp] at hb; rw [← hb] at h; cases h
  | none =>
    obtain ⟨hp, hf⟩ := (State.cycleBar_none_iff s).mp hb
    refine ⟨hp, hf, ?_⟩
    rw [hb] at h
    simp only at h
    cases hi : s.fetchInstr with
    | error f => rw [hi] at h; exact .inl ⟨f, rfl, by simpa using h.symm⟩
    | ok i =>
      rw [hi] at h
      simp only at h
      cases he : exec i s with
      | next u => rw [he] at h; exact .inr ⟨i, u, rfl, he, by simpa [endCycle] using h.symm⟩
      | fault f => rw [he] at h; cases h
      | refused r => rw [he] at h; cases h

/-- An admitted step in terms of its stages (R101). -/
theorem step_admitted {s : State} (hp : s.phase = .running) (hf : s.fault = none) :
    step s = (match s.fetchInstr with | .error f => s.raise f | .ok i => endCycle (exec i s)) := by
  have hb := (State.cycleBar_none_iff s).mpr ⟨hp, hf⟩
  cases hi : s.fetchInstr <;> simp [step, cycle, hb, hi]

end Sys2Proof.Machine
end

