-- ==== Sys2Proof/Laws/Display.lean ====
section
/-! SUPPORT. The laws of the draw's two loops: which pixels they flip and when they note a collision (45_display.md R176
to R179). -/

open Classical

namespace Sys2Proof.Machine

/-- Two column offsets of one sprite row never land on one column: 8 is at most 64 (R178). -/
theorem spriteCol_injective {cx : Byte} {c c' : Nat} (h : c < 8) (h' : c' < 8) (e : spriteCol cx c = spriteCol cx c') :
    c = c' := by
  have := Fin.mk.inj_iff.mp e
  omega

/-- Two row offsets of one sprite never land on one row: 15 is below 32 (R178). -/
theorem spriteRow_injective {cy : Byte} {r r' : Nat} (h : r < 16) (h' : r' < 16) (e : spriteRow cy r = spriteRow cy r') :
    r = r' := by
  have := Fin.mk.inj_iff.mp e
  omega

/-- Column offset `k` in `c .. c + count - 1` of a sprite row is a bit of 1 and lands on `col`. -/
def RowCovers (cx b : Byte) (c count : Nat) (col : Fin 64) : Prop :=
  ∃ k, c ≤ k ∧ k < c + count ∧ spriteBit b k = true ∧ spriteCol cx k = col

theorem rowCovers_zero (cx b : Byte) (c : Nat) (col : Fin 64) : ¬RowCovers cx b c 0 col := by
  rintro ⟨k, h1, h2, _⟩
  omega

theorem rowCovers_succ (cx b : Byte) (c count : Nat) (col : Fin 64) :
    RowCovers cx b c (count + 1) col ↔
      (spriteBit b c = true ∧ spriteCol cx c = col) ∨ RowCovers cx b (c + 1) count col := by
  constructor
  · rintro ⟨k, h1, h2, h3, h4⟩
    rcases Nat.eq_or_lt_of_le h1 with rfl | h
    · exact .inl ⟨h3, h4⟩
    · exact .inr ⟨k, h, by omega, h3, h4⟩
  · rintro (⟨h3, h4⟩ | ⟨k, h1, h2, h3, h4⟩)
    · exact ⟨c, by omega, by omega, h3, h4⟩
    · exact ⟨k, by omega, by omega, h3, h4⟩

/-- A column already passed is not covered again. -/
theorem rowCovers_succ_self {cx b : Byte} {c count : Nat} (h : c + (count + 1) ≤ 8) :
    ¬RowCovers cx b (c + 1) count (spriteCol cx c) := by
  rintro ⟨k, h1, h2, _, h4⟩
  have := spriteCol_injective (by omega) (by omega) h4
  omega

/-- A sprite row flips exactly the pixels it covers. -/
theorem pixelOf_blitCols (row row' : Fin 32) (cx b : Byte) (col : Fin 64) (c count : Nat) (h : c + count ≤ 8)
    (acc : Blit) :
    pixelOf (blitCols row cx b c count acc).fb row' col =
      (pixelOf acc.fb row' col ^^ decide (row' = row ∧ RowCovers cx b c count col)) := by
  induction count generalizing c acc with
  | zero => simp [blitCols, rowCovers_zero]
  | succ n ih =>
    rw [blitCols, ih (c + 1) (by omega)]
    by_cases hb : spriteBit b c = true
    · rw [if_pos hb, show (blitPixel row (spriteCol cx c) acc).fb = flipPixel acc.fb row (spriteCol cx c) from rfl,
        pixelOf_flipPixel]
      by_cases hp : row' = row ∧ col = spriteCol cx c
      · obtain ⟨rfl, rfl⟩ := hp
        simp [rowCovers_succ_self h, rowCovers_succ, hb]
      · have : (row' = row ∧ RowCovers cx b c (n + 1) col) ↔ (row' = row ∧ RowCovers cx b (c + 1) n col) := by
          rw [rowCovers_succ]
          refine and_congr_right fun hr => or_iff_right fun hc => hp ⟨hr, hc.2.symm⟩
        rw [if_neg hp, decide_eq_decide.mpr this]
    · have : RowCovers cx b c (n + 1) col ↔ RowCovers cx b (c + 1) n col := by rw [rowCovers_succ]; simp [hb]
      rw [if_neg hb, decide_eq_decide.mpr (and_congr_right fun _ => this)]

/-- A sprite row notes a collision exactly when it covers a lit pixel (R179). -/
theorem hit_blitCols (row : Fin 32) (cx b : Byte) (c count : Nat) (h : c + count ≤ 8) (acc : Blit) :
    (blitCols row cx b c count acc).hit = true ↔
      acc.hit = true ∨ ∃ col, RowCovers cx b c count col ∧ pixelOf acc.fb row col = true := by
  induction count generalizing c acc with
  | zero => simp [blitCols, rowCovers_zero]
  | succ n ih =>
    rw [blitCols, ih (c + 1) (by omega)]
    by_cases hb : spriteBit b c = true
    · have key : ∀ col, RowCovers cx b (c + 1) n col →
          pixelOf (flipPixel acc.fb row (spriteCol cx c)) row col = pixelOf acc.fb row col := by
        intro col hc
        rw [pixelOf_flipPixel, if_neg]
        rintro ⟨_, rfl⟩
        exact rowCovers_succ_self h hc
      rw [if_pos hb]
      simp only [blitPixel, Bool.or_eq_true, or_assoc]
      refine or_congr_right ⟨?_, ?_⟩
      · rintro (hl | ⟨col, hc, hl⟩)
        · exact ⟨_, (rowCovers_succ ..).mpr (.inl ⟨hb, rfl⟩), hl⟩
        · exact ⟨col, (rowCovers_succ ..).mpr (.inr hc), key col hc ▸ hl⟩
      · rintro ⟨col, hc, hl⟩
        rcases (rowCovers_succ ..).mp hc with ⟨_, rfl⟩ | hc
        · exact .inl hl
        · exact .inr ⟨col, hc, (key col hc).trans hl⟩
    · rw [if_neg hb]
      simp only [rowCovers_succ, hb, Bool.false_eq_true, false_and, false_or]

/-- Sprite rows `bytes`, the first at row offset `r`, have a bit of 1 that lands on (row, col). -/
def BytesCover (cx cy : Byte) (r : Nat) (bytes : List Byte) (row : Fin 32) (col : Fin 64) : Prop :=
  ∃ j, ∃ h : j < bytes.length, spriteRow cy (r + j) = row ∧ RowCovers cx bytes[j] 0 8 col

theorem bytesCover_nil (cx cy : Byte) (r : Nat) (row : Fin 32) (col : Fin 64) : ¬BytesCover cx cy r [] row col := by
  rintro ⟨j, h, _⟩
  exact absurd h (Nat.not_lt_zero j)

theorem bytesCover_cons (cx cy b : Byte) (r : Nat) (rest : List Byte) (row : Fin 32) (col : Fin 64) :
    BytesCover cx cy r (b :: rest) row col ↔
      (row = spriteRow cy r ∧ RowCovers cx b 0 8 col) ∨ BytesCover cx cy (r + 1) rest row col := by
  constructor
  · rintro ⟨j, h, h1, h2⟩
    cases j with
    | zero => exact .inl ⟨h1.symm, h2⟩
    | succ j => exact .inr ⟨j, by simpa using h, by rw [← h1]; congr 1; omega, h2⟩
  · rintro (⟨h1, h2⟩ | ⟨j, h, h1, h2⟩)
    · exact ⟨0, by simp, h1.symm, h2⟩
    · exact ⟨j + 1, by simpa using h, by rw [← h1]; congr 1; omega, h2⟩

/-- A row already drawn is not covered again. -/
theorem bytesCover_succ_self {cx cy : Byte} {r : Nat} {rest : List Byte} {col : Fin 64} (h : r + (rest.length + 1) ≤ 16) :
    ¬BytesCover cx cy (r + 1) rest (spriteRow cy r) col := by
  rintro ⟨j, hj, h1, _⟩
  have := spriteRow_injective (by omega) (by omega) h1
  omega

/-- The draw flips exactly the pixels its sprite covers (R176). -/
theorem pixelOf_blitRows (cx cy : Byte) (row : Fin 32) (col : Fin 64) (r : Nat) (bytes : List Byte)
    (h : r + bytes.length ≤ 16) (acc : Blit) :
    pixelOf (blitRows cx cy r bytes acc).fb row col =
      (pixelOf acc.fb row col ^^ decide (BytesCover cx cy r bytes row col)) := by
  induction bytes generalizing r acc with
  | nil => simp [blitRows, bytesCover_nil]
  | cons b rest ih =>
    simp only [List.length_cons] at h
    rw [blitRows, ih (r + 1) (by omega), pixelOf_blitCols _ _ _ _ _ _ _ (by omega), Bool.xor_assoc]
    congr 1
    by_cases hr : row = spriteRow cy r
    · subst hr
      simp [bytesCover_succ_self h, bytesCover_cons]
    · simp [hr, bytesCover_cons]

/-- The draw notes a collision exactly when its sprite covers a pixel that was lit before it (R179). -/
theorem hit_blitRows (cx cy : Byte) (r : Nat) (bytes : List Byte) (h : r + bytes.length ≤ 16) (acc : Blit) :
    (blitRows cx cy r bytes acc).hit = true ↔
      acc.hit = true ∨ ∃ row col, BytesCover cx cy r bytes row col ∧ pixelOf acc.fb row col = true := by
  induction bytes generalizing r acc with
  | nil => simp [blitRows, bytesCover_nil]
  | cons b rest ih =>
    simp only [List.length_cons] at h
    rw [blitRows, ih (r + 1) (by omega), hit_blitCols _ _ _ _ _ (by omega), or_assoc]
    refine or_congr_right ?_
    have key : ∀ row col, BytesCover cx cy (r + 1) rest row col →
        pixelOf (blitCols (spriteRow cy r) cx b 0 8 acc).fb row col = pixelOf acc.fb row col := by
      intro row col hc
      rw [pixelOf_blitCols _ _ _ _ _ _ _ (by omega), decide_eq_false, Bool.xor_false]
      rintro ⟨rfl, _⟩
      exact bytesCover_succ_self h hc
    constructor
    · rintro (⟨col, hc, hl⟩ | ⟨row, col, hc, hl⟩)
      · exact ⟨_, col, (bytesCover_cons ..).mpr (.inl ⟨rfl, hc⟩), hl⟩
      · exact ⟨row, col, (bytesCover_cons ..).mpr (.inr hc), (key row col hc).symm.trans hl⟩
    · rintro ⟨row, col, hc, hl⟩
      rcases (bytesCover_cons ..).mp hc with ⟨rfl, h'⟩ | h'
      · exact .inl ⟨col, h', hl⟩
      · exact .inr ⟨row, col, h', (key row col h').trans hl⟩

end Sys2Proof.Machine
end

