-- ==== Sys2Proof/Laws/Exec.lean ====
section
/-! SUPPORT. What one instruction, one step and one host action can do, said once as record equations; the provers
derive who-changes-what and the invariants from these instead of unfolding the meanings. -/

namespace Sys2Proof.Machine

/-- The fields an instruction may change from `s` to `t` when its execute stage raises nothing, and what a field it
writes without a condition becomes. -/
def execFrame (i : Instr) (s t : State) : Prop :=
  match i with
  | .cls => t = { s with fb := t.fb, pc := s.pc + 2 }
  | .ret => t = { s with sp := t.sp, pc := t.pc }
  | .call _ => t = { s with stack := t.stack, sp := t.sp, pc := t.pc }
  | .jp _ | .jpV0Nnn _ | .seVxKk _ _ | .sneVxKk _ _ | .seVxVy _ _ | .sneVxVy _ _ | .skpVx _ | .sknpVx _ =>
    t = { s with pc := t.pc }
  | .ldVxKk _ _ | .addVxKk _ _ | .ldVxVy _ _ | .orVxVy _ _ | .andVxVy _ _ | .xorVxVy _ _ | .addVxVy _ _ | .subVxVy _ _
  | .shrVxVy _ _ | .subnVxVy _ _ | .shlVxVy _ _ | .ldVxDt _ | .ldVxMem _ => t = { s with v := t.v, pc := s.pc + 2 }
  | .rndVxKk _ _ => t = { s with v := t.v, pc := s.pc + 2, draws := t.draws }
  | .drwVxVyN _ _ _ => t = { s with fb := t.fb, v := t.v, pc := s.pc + 2 }
  | .ldVxK x => t = { s with waiting := true, keyReg := x, pc := s.pc + 2 }
  | .ldDtVx x => t = { s with dt := s.readV x, pc := s.pc + 2 }
  | .ldStVx x => t = { s with st := s.readV x, pc := s.pc + 2 }
  | .ldINnn _ | .addIVx _ | .ldFVx _ => t = { s with i := t.i, pc := s.pc + 2 }
  | .ldBVx _ | .ldMemVx _ => t = { s with mem := t.mem, pc := s.pc + 2 }

/-- A checked operation raised, or what follows it has the property. -/
theorem State.orRaise_fault_or {α : Type} {s t : State} {r : Except Fault α} {k : α → State} (P : State → Prop)
    (hk : ∀ a, r = .ok a → P (k a)) (h : s.orRaise r k = .next t) : (∃ f, t = { s with fault := some f }) ∨ P t := by
  rcases State.orRaise_next h with ⟨f, _, e⟩ | ⟨a, ha, e⟩
  · exact .inl ⟨f, e⟩
  · exact .inr (e ▸ hk a ha)

/-- All an execute stage that answers a next state can have done: it raised, and the latch alone changed; or it stayed
inside the instruction's frame. -/
theorem exec_cases {i : Instr} {s t : State} (h : exec i s = .next t) :
    (∃ f, t = { s with fault := some f }) ∨ execFrame i s t := by
  cases i
  case ret =>
    refine State.orRaise_fault_or (execFrame .ret s) (fun a ha => ?_) h
    rcases s.pop_cases with ⟨_, e⟩ | ⟨_, e⟩ <;> rw [e] at ha <;> cases ha; rfl
  case call nnn =>
    refine State.orRaise_fault_or (execFrame (.call nnn) s) (fun a ha => ?_) h
    rcases s.push_cases (s.pc + 2) with ⟨_, e⟩ | ⟨_, e⟩ <;> rw [e] at ha <;> cases ha; rfl
  case ldBVx x =>
    refine State.orRaise_fault_or (execFrame (.ldBVx x) s) (fun a ha => ?_) h
    unfold State.storeBytes at ha; split at ha <;> cases ha; rfl
  case ldMemVx x =>
    refine State.orRaise_fault_or (execFrame (.ldMemVx x) s) (fun a ha => ?_) h
    unfold State.storeBytes at ha; split at ha <;> cases ha; rfl
  case drwVxVyN x y n =>
    refine State.orRaise_fault_or (execFrame (.drwVxVyN x y n) s) ?_ h
    exact fun _ _ => rfl
  case ldVxMem x =>
    refine State.orRaise_fault_or (execFrame (.ldVxMem x) s) ?_ h
    exact fun _ _ => rfl
  case skpVx x =>
    refine State.orRaise_fault_or (execFrame (.skpVx x) s) ?_ h
    exact fun _ _ => rfl
  case sknpVx x =>
    refine State.orRaise_fault_or (execFrame (.sknpVx x) s) ?_ h
    exact fun _ _ => rfl
  all_goals (right; cases h; rfl)

/-- Inside its frame an instruction leaves the latch alone. -/
theorem execFrame_fault {i : Instr} {s t : State} (h : execFrame i s t) : t.fault = s.fault := by
  cases i <;> simp only [execFrame] at h <;> rw [h]

/-- All a step that answers a next state can have done: the latch alone changed; or the decoded instruction ran inside
its frame, without a fault, and the timers ticked. -/
theorem step_cases {s t : State} (h : step s = .next t) :
    (∃ f, t = { s with fault := some f }) ∨
    ∃ i u, s.fetchInstr = .ok i ∧ exec i s = .next u ∧ execFrame i s u ∧ s.fault = none ∧ u.fault = none ∧ t = u.tick := by
  obtain ⟨_, hf, ⟨f, _, e⟩ | ⟨i, u, hi, hu, e⟩⟩ := step_next h
  · exact .inl ⟨f, e⟩
  · rcases exec_cases hu with ⟨f, e'⟩ | hfr
    · refine .inl ⟨f, e.trans ?_⟩
      rw [if_neg (by rw [e']; simp), e']
    · have huf : u.fault = none := (execFrame_fault hfr).trans hf
      rw [if_pos huf] at e
      exact .inr ⟨i, u, hi, hu, hfr, hf, huf, e⟩

/-- An admitted step whose instruction answers an unfaulted state is that state ticked. -/
theorem step_of_exec {s u : State} {i : Instr} (hp : s.phase = .running) (hf : s.fault = none)
    (hi : s.fetchInstr = .ok i) (hu : exec i s = .next u) (hg : u.fault = none) : step s = .next u.tick := by
  rw [step_admitted hp hf, hi]
  simp [hu, endCycle, hg]

/-- All a host action that answers a next state can have done (R200 to R212). -/
theorem act_cases {a : HostAction} {s t : State} (h : act a s = .next t) :
    (a = .reset ∧ t = { State.reset with draws := s.draws }) ∨
    (∃ font, a = .initializeFont font ∧ s.fault = none ∧ s.phase = .idle ∧
      t = { s with mem := Memory.writeBytes s.mem Config.fontBase font.toList, phase := .ready }) ∨
    (∃ image, a = .loadProgram image ∧ s.fault = none ∧ s.phase = .ready ∧
      ((image.length ≤ Config.maxImage ∧
        t = { s with mem := Memory.writeBytes s.mem Config.progBase image, phase := .running }) ∨
       (Config.maxImage < image.length ∧ t = { s with fault := some (.imageTooLarge image.length) }))) ∨
    (a = .cycle ∧ step s = .next t) ∨
    (∃ keys, a = .setKeys keys ∧ s.fault = none ∧ t = { s with keys := keys }) ∨
    (∃ k, a = .keyResolve k ∧ s.fault = none ∧ s.waiting = true ∧ s.phase = .running ∧
      t = { s.writeV s.keyReg (BitVec.ofNat 8 k.val) with waiting := false }) ∨
    ((a = .readFramebuffer ∨ a = .readWait) ∧ t = s) := by
  cases a
  case reset => cases h; exact .inl ⟨rfl, rfl⟩
  case initializeFont font =>
    simp only [act, hostInitialize, State.unlessFaulted] at h
    split at h
    · cases h
    · split at h
      · rename_i hf hp; cases h; exact .inr (.inl ⟨font, rfl, hf, hp, rfl⟩)
      · cases h
  case loadProgram image =>
    simp only [act, hostLoadProgram, State.unlessFaulted] at h
    split at h
    · cases h
    · split at h
      · rename_i hf hp
        refine .inr (.inr (.inl ⟨image, rfl, hf, hp, ?_⟩))
        split at h
        · rename_i hl; cases h; exact .inl ⟨by simpa [imageFits] using hl, rfl⟩
        · rename_i hl; cases h; exact .inr ⟨by simpa [imageFits] using hl, rfl⟩
      · cases h
  case cycle => exact .inr (.inr (.inr (.inl ⟨rfl, h⟩)))
  case setKeys keys =>
    simp only [act, hostSetKeys, State.unlessFaulted] at h
    split at h
    · cases h
    · rename_i hf; cases h; exact .inr (.inr (.inr (.inr (.inl ⟨keys, rfl, hf, rfl⟩))))
  case keyResolve k =>
    simp only [act, hostKeyResolve, State.unlessFaulted] at h
    split at h
    · cases h
    · split at h
      · rename_i hf hw; cases h
        exact .inr (.inr (.inr (.inr (.inr (.inl ⟨k, rfl, hf, hw.1, hw.2, rfl⟩)))))
      · cases h
  case readFramebuffer => cases h; simp
  case readWait => cases h; simp

end Sys2Proof.Machine
end

