-- ==== Sys2Proof/Laws/PerInstr.lean ====
section
/-! SUPPORT. The family `Encoded`, one lemma for each constructor: the encoded word of an instruction is a word its row
of the opcode map selects, and the row is a sound row of the map (30_encoding.md R73, R81). -/

namespace Sys2Proof.Laws.Encoded

/-- The word `encode i` is selected by the row of `i`, and `i` is well formed. -/
def Statement (i : Instr) : Prop := i.row.selects (encode i) = true ∧ i.wellFormed = true

/-- An instruction is well formed when its row is. -/
theorem wellFormed_of_row {i : Instr} {r : OpRow} (e : i.row = r)
    (h : (r.sound && opcodeTable.contains r) = true) : i.wellFormed = true := by
  subst e; exact h

/-- A mask acts on the four nibbles of a word one by one. -/
theorem mergeU16_and (n0 n1 n2 n3 m0 m1 m2 m3 : Nibble) :
    mergeU16 n0 n1 n2 n3 &&& mergeU16 m0 m1 m2 m3 = mergeU16 (n0 &&& m0) (n1 &&& m1) (n2 &&& m2) (n3 &&& m3) := by
  apply BitVec.eq_of_getLsbD_eq
  intro k hk
  simp only [mergeU16, merge, BitVec.getLsbD_and, BitVec.getLsbD_append]
  split <;> split <;> rfl

/-- A row that fixes the top nibble (formats NNN, XKK, Dxyn). -/
theorem selects_top (n0 n1 n2 n3 : Nibble) {bits : Word} (h : mergeU16 n0 0 0 0 = bits) :
    OpRow.selects ⟨0xF000, bits⟩ (mergeU16 n0 n1 n2 n3) = true := by
  have e : (0xF000 : Word) = mergeU16 0xF 0 0 0 := by decide
  have o : ∀ n : Nibble, n &&& 0xF = n := by decide
  have z : ∀ n : Nibble, n &&& 0 = 0 := by decide
  rw [OpRow.selects, e, mergeU16_and]
  simp only [o, z, h, beq_self_eq_true]

/-- A row that fixes the top and the bottom nibble (format XYN). -/
theorem selects_ends (n0 n1 n2 n3 : Nibble) {bits : Word} (h : mergeU16 n0 0 0 n3 = bits) :
    OpRow.selects ⟨0xF00F, bits⟩ (mergeU16 n0 n1 n2 n3) = true := by
  have e : (0xF00F : Word) = mergeU16 0xF 0 0 0xF := by decide
  have o : ∀ n : Nibble, n &&& 0xF = n := by decide
  have z : ∀ n : Nibble, n &&& 0 = 0 := by decide
  rw [OpRow.selects, e, mergeU16_and]
  simp only [o, z, h, beq_self_eq_true]

/-- A row that fixes the top nibble and the low byte (format XLL). -/
theorem selects_low (n0 n1 : Nibble) (low : Byte) {bits : Word}
    (h : mergeU16 n0 0 (split low).1 (split low).2 = bits) :
    OpRow.selects ⟨0xF0FF, bits⟩ (mergeU16 n0 n1 (split low).1 (split low).2) = true := by
  have e : (0xF0FF : Word) = mergeU16 0xF 0 0xF 0xF := by decide
  have o : ∀ n : Nibble, n &&& 0xF = n := by decide
  have z : ∀ n : Nibble, n &&& 0 = 0 := by decide
  rw [OpRow.selects, e, mergeU16_and]
  simp only [o, z, h, beq_self_eq_true]

theorem cls : Statement (.cls) :=
  ⟨rfl, rfl⟩

theorem ret : Statement (.ret) :=
  ⟨rfl, rfl⟩

theorem jp (nnn : Addr) : Statement (.jp nnn) :=
  ⟨selects_top 0x1 _ _ _ (by decide), wellFormed_of_row (r := ⟨0xF000, 0x1000⟩) rfl (by decide)⟩

theorem call (nnn : Addr) : Statement (.call nnn) :=
  ⟨selects_top 0x2 _ _ _ (by decide), wellFormed_of_row (r := ⟨0xF000, 0x2000⟩) rfl (by decide)⟩

theorem seVxKk (x : Reg) (kk : Byte) : Statement (.seVxKk x kk) :=
  ⟨selects_top 0x3 _ _ _ (by decide), wellFormed_of_row (r := ⟨0xF000, 0x3000⟩) rfl (by decide)⟩

theorem sneVxKk (x : Reg) (kk : Byte) : Statement (.sneVxKk x kk) :=
  ⟨selects_top 0x4 _ _ _ (by decide), wellFormed_of_row (r := ⟨0xF000, 0x4000⟩) rfl (by decide)⟩

theorem seVxVy (x y : Reg) : Statement (.seVxVy x y) :=
  ⟨selects_ends 0x5 _ _ 0x0 (by decide), wellFormed_of_row (r := ⟨0xF00F, 0x5000⟩) rfl (by decide)⟩

theorem ldVxKk (x : Reg) (kk : Byte) : Statement (.ldVxKk x kk) :=
  ⟨selects_top 0x6 _ _ _ (by decide), wellFormed_of_row (r := ⟨0xF000, 0x6000⟩) rfl (by decide)⟩

theorem addVxKk (x : Reg) (kk : Byte) : Statement (.addVxKk x kk) :=
  ⟨selects_top 0x7 _ _ _ (by decide), wellFormed_of_row (r := ⟨0xF000, 0x7000⟩) rfl (by decide)⟩

theorem ldVxVy (x y : Reg) : Statement (.ldVxVy x y) :=
  ⟨selects_ends 0x8 _ _ 0x0 (by decide), wellFormed_of_row (r := ⟨0xF00F, 0x8000⟩) rfl (by decide)⟩

theorem orVxVy (x y : Reg) : Statement (.orVxVy x y) :=
  ⟨selects_ends 0x8 _ _ 0x1 (by decide), wellFormed_of_row (r := ⟨0xF00F, 0x8001⟩) rfl (by decide)⟩

theorem andVxVy (x y : Reg) : Statement (.andVxVy x y) :=
  ⟨selects_ends 0x8 _ _ 0x2 (by decide), wellFormed_of_row (r := ⟨0xF00F, 0x8002⟩) rfl (by decide)⟩

theorem xorVxVy (x y : Reg) : Statement (.xorVxVy x y) :=
  ⟨selects_ends 0x8 _ _ 0x3 (by decide), wellFormed_of_row (r := ⟨0xF00F, 0x8003⟩) rfl (by decide)⟩

theorem addVxVy (x y : Reg) : Statement (.addVxVy x y) :=
  ⟨selects_ends 0x8 _ _ 0x4 (by decide), wellFormed_of_row (r := ⟨0xF00F, 0x8004⟩) rfl (by decide)⟩

theorem subVxVy (x y : Reg) : Statement (.subVxVy x y) :=
  ⟨selects_ends 0x8 _ _ 0x5 (by decide), wellFormed_of_row (r := ⟨0xF00F, 0x8005⟩) rfl (by decide)⟩

theorem shrVxVy (x y : Reg) : Statement (.shrVxVy x y) :=
  ⟨selects_ends 0x8 _ _ 0x6 (by decide), wellFormed_of_row (r := ⟨0xF00F, 0x8006⟩) rfl (by decide)⟩

theorem subnVxVy (x y : Reg) : Statement (.subnVxVy x y) :=
  ⟨selects_ends 0x8 _ _ 0x7 (by decide), wellFormed_of_row (r := ⟨0xF00F, 0x8007⟩) rfl (by decide)⟩

theorem shlVxVy (x y : Reg) : Statement (.shlVxVy x y) :=
  ⟨selects_ends 0x8 _ _ 0xE (by decide), wellFormed_of_row (r := ⟨0xF00F, 0x800E⟩) rfl (by decide)⟩

theorem sneVxVy (x y : Reg) : Statement (.sneVxVy x y) :=
  ⟨selects_ends 0x9 _ _ 0x0 (by decide), wellFormed_of_row (r := ⟨0xF00F, 0x9000⟩) rfl (by decide)⟩

theorem ldINnn (nnn : Addr) : Statement (.ldINnn nnn) :=
  ⟨selects_top 0xA _ _ _ (by decide), wellFormed_of_row (r := ⟨0xF000, 0xA000⟩) rfl (by decide)⟩

theorem jpV0Nnn (nnn : Addr) : Statement (.jpV0Nnn nnn) :=
  ⟨selects_top 0xB _ _ _ (by decide), wellFormed_of_row (r := ⟨0xF000, 0xB000⟩) rfl (by decide)⟩

theorem rndVxKk (x : Reg) (kk : Byte) : Statement (.rndVxKk x kk) :=
  ⟨selects_top 0xC _ _ _ (by decide), wellFormed_of_row (r := ⟨0xF000, 0xC000⟩) rfl (by decide)⟩

theorem drwVxVyN (x y : Reg) (n : Nibble) : Statement (.drwVxVyN x y n) :=
  ⟨selects_top 0xD _ _ _ (by decide), wellFormed_of_row (r := ⟨0xF000, 0xD000⟩) rfl (by decide)⟩

theorem skpVx (x : Reg) : Statement (.skpVx x) :=
  ⟨selects_low 0xE _ 0x9E (by decide), wellFormed_of_row (r := ⟨0xF0FF, 0xE09E⟩) rfl (by decide)⟩

theorem sknpVx (x : Reg) : Statement (.sknpVx x) :=
  ⟨selects_low 0xE _ 0xA1 (by decide), wellFormed_of_row (r := ⟨0xF0FF, 0xE0A1⟩) rfl (by decide)⟩

theorem ldVxDt (x : Reg) : Statement (.ldVxDt x) :=
  ⟨selects_low 0xF _ 0x07 (by decide), wellFormed_of_row (r := ⟨0xF0FF, 0xF007⟩) rfl (by decide)⟩

theorem ldVxK (x : Reg) : Statement (.ldVxK x) :=
  ⟨selects_low 0xF _ 0x0A (by decide), wellFormed_of_row (r := ⟨0xF0FF, 0xF00A⟩) rfl (by decide)⟩

theorem ldDtVx (x : Reg) : Statement (.ldDtVx x) :=
  ⟨selects_low 0xF _ 0x15 (by decide), wellFormed_of_row (r := ⟨0xF0FF, 0xF015⟩) rfl (by decide)⟩

theorem ldStVx (x : Reg) : Statement (.ldStVx x) :=
  ⟨selects_low 0xF _ 0x18 (by decide), wellFormed_of_row (r := ⟨0xF0FF, 0xF018⟩) rfl (by decide)⟩

theorem addIVx (x : Reg) : Statement (.addIVx x) :=
  ⟨selects_low 0xF _ 0x1E (by decide), wellFormed_of_row (r := ⟨0xF0FF, 0xF01E⟩) rfl (by decide)⟩

theorem ldFVx (x : Reg) : Statement (.ldFVx x) :=
  ⟨selects_low 0xF _ 0x29 (by decide), wellFormed_of_row (r := ⟨0xF0FF, 0xF029⟩) rfl (by decide)⟩

theorem ldBVx (x : Reg) : Statement (.ldBVx x) :=
  ⟨selects_low 0xF _ 0x33 (by decide), wellFormed_of_row (r := ⟨0xF0FF, 0xF033⟩) rfl (by decide)⟩

theorem ldMemVx (x : Reg) : Statement (.ldMemVx x) :=
  ⟨selects_low 0xF _ 0x55 (by decide), wellFormed_of_row (r := ⟨0xF0FF, 0xF055⟩) rfl (by decide)⟩

theorem ldVxMem (x : Reg) : Statement (.ldVxMem x) :=
  ⟨selects_low 0xF _ 0x65 (by decide), wellFormed_of_row (r := ⟨0xF0FF, 0xF065⟩) rfl (by decide)⟩

end Sys2Proof.Laws.Encoded
end

