-- ==== Sys2Proof/Tests/Slice0.lean ====
section
/-! SUPPORT. Tests of one step or one call each, their expected results from spec/95_test_vectors.md (the vector's
number stands in the comment) or written out from the encodings of 30_encoding.md R73; the well-formedness smoke tests;
and one witness for every statement that has hypotheses, at the boundary of each clause. -/

open Sys2Proof Sys2Proof.Machine

namespace Sys2Proof.Tests

/-! ### Decoding: every constructor by a word written out from its pattern (95_test_vectors.md Part 3) -/

theorem test_decode_flow :
    decodeBytes [0x00, 0xE0] = .decoded .cls [] ∧ decodeBytes [0x00, 0xEE] = .decoded .ret [] ∧
    decodeBytes [0x1A, 0xBC] = .decoded (.jp 0xABC) [] ∧ decodeBytes [0x20, 0x00] = .decoded (.call 0x000) [] ∧
    decodeBytes [0xB1, 0x23] = .decoded (.jpV0Nnn 0x123) [] := by decide

theorem test_decode_skips :
    decodeBytes [0x3A, 0x7F] = .decoded (.seVxKk 0xA 0x7F) [] ∧
    decodeBytes [0x40, 0x00] = .decoded (.sneVxKk 0 0x00) [] ∧
    decodeBytes [0x5A, 0xB0] = .decoded (.seVxVy 0xA 0xB) [] ∧
    decodeBytes [0x9A, 0xB0] = .decoded (.sneVxVy 0xA 0xB) [] := by decide

theorem test_decode_literals :
    decodeBytes [0x6F, 0xFF] = .decoded (.ldVxKk 0xF 0xFF) [] ∧
    decodeBytes [0x7E, 0x81] = .decoded (.addVxKk 0xE 0x81) [] ∧
    decodeBytes [0xC1, 0xF0] = .decoded (.rndVxKk 1 0xF0) [] := by decide

theorem test_decode_alu :
    decodeBytes [0x8A, 0xB0] = .decoded (.ldVxVy 0xA 0xB) [] ∧
    decodeBytes [0x8A, 0xB1] = .decoded (.orVxVy 0xA 0xB) [] ∧
    decodeBytes [0x8A, 0xB2] = .decoded (.andVxVy 0xA 0xB) [] ∧
    decodeBytes [0x8A, 0xB3] = .decoded (.xorVxVy 0xA 0xB) [] ∧
    decodeBytes [0x8A, 0xB4] = .decoded (.addVxVy 0xA 0xB) [] ∧
    decodeBytes [0x8A, 0xB5] = .decoded (.subVxVy 0xA 0xB) [] ∧
    decodeBytes [0x8A, 0xB6] = .decoded (.shrVxVy 0xA 0xB) [] ∧
    decodeBytes [0x8A, 0xB7] = .decoded (.subnVxVy 0xA 0xB) [] ∧
    decodeBytes [0x8A, 0xBE] = .decoded (.shlVxVy 0xA 0xB) [] := by decide

theorem test_decode_index_and_display :
    decodeBytes [0xA1, 0x23] = .decoded (.ldINnn 0x123) [] ∧ decodeBytes [0xF1, 0x1E] = .decoded (.addIVx 1) [] ∧
    decodeBytes [0xF1, 0x29] = .decoded (.ldFVx 1) [] ∧ decodeBytes [0xF1, 0x33] = .decoded (.ldBVx 1) [] ∧
    decodeBytes [0xF1, 0x55] = .decoded (.ldMemVx 1) [] ∧ decodeBytes [0xF1, 0x65] = .decoded (.ldVxMem 1) [] ∧
    decodeBytes [0xD1, 0x20] = .decoded (.drwVxVyN 1 2 0) [] ∧
    decodeBytes [0xDA, 0xBF] = .decoded (.drwVxVyN 0xA 0xB 0xF) [] := by decide

theorem test_decode_keyboard_and_timers :
    decodeBytes [0xE1, 0x9E] = .decoded (.skpVx 1) [] ∧ decodeBytes [0xE1, 0xA1] = .decoded (.sknpVx 1) [] ∧
    decodeBytes [0xF1, 0x07] = .decoded (.ldVxDt 1) [] ∧ decodeBytes [0xF1, 0x0A] = .decoded (.ldVxK 1) [] ∧
    decodeBytes [0xF1, 0x15] = .decoded (.ldDtVx 1) [] ∧ decodeBytes [0xF1, 0x18] = .decoded (.ldStVx 1) [] := by decide

/-- The illegal words of Part 3. -/
def illegalWords : List Word :=
  [0x0000, 0x00E1, 0x00EF, 0x00FE, 0x01E0, 0x0123, 0x0FFF, 0x5AB1, 0x512F, 0x9AB1] ++
  [0x8AB8, 0x8AB9, 0x8ABA, 0x8ABB, 0x8ABC, 0x8ABD, 0x8ABF] ++
  [0xE19F, 0xE100, 0xE1A0, 0xE1FF, 0xF100, 0xF101, 0xF175, 0xF185, 0xF1FF, 0xF130, 0xF102]

theorem test_decode_illegal : illegalWords.all (fun op => (decodeWord op).isNone) = true := by decide

theorem test_decode_truncated :
    decodeBytes [] = .truncated ∧ decodeBytes [0x00] = .truncated ∧
    decodeBytes [0x12, 0x34, 0x56] = .decoded (.jp 0x234) [0x56] := by decide

theorem test_encode_words :
    encodeBytes .ret = [0x00, 0xEE] ∧ encodeBytes (.call 0x30C) = [0x23, 0x0C] ∧
    encodeBytes (.sneVxKk 0xA 0x10) = [0x4A, 0x10] ∧ encodeBytes (.shlVxVy 1 2) = [0x81, 0x2E] ∧
    encodeBytes (.drwVxVyN 0 1 2) = [0xD0, 0x12] ∧ encodeBytes (.sknpVx 0xC) = [0xEC, 0xA1] ∧
    encodeBytes (.ldMemVx 0xF) = [0xFF, 0x55] := by decide

/-- S1: nibbles of a byte and of a word. -/
theorem test_split_merge :
    split 0x7E = (0x7, 0xE) ∧ merge 0x7 0xE = 0x7E ∧ mergeU16 0x7 0xE 0x8 0x1 = 0x7E81 ∧ split 0x0F = (0x0, 0xF) := by
  decide

/-! ### Well-formedness: an ill-formed term for each check is refused -/

theorem test_wellFormed_row_with_bits_outside_its_mask :
    OpRow.sound ⟨0xF000, 0x00FF⟩ = false ∧ OpRow.sound ⟨0xF0FF, 0xE09E⟩ = true := by decide

theorem test_wellFormed_row_outside_the_map :
    opcodeTable.contains ⟨0xF0FF, 0xF075⟩ = false ∧ opcodeTable.contains ⟨0xF0FF, 0xF065⟩ = true := by decide

theorem test_wellFormed_illegal_word : legalWord 0x0000 = false ∧ legalWord 0x00E0 = true := by decide

theorem test_wellFormed_image_too_long :
    imageFits (List.replicate 3585 0) = false ∧ imageFits (List.replicate 3584 0) = true ∧ imageFits [] = true := by
  refine ⟨?_, ?_, rfl⟩ <;> (unfold imageFits; rw [List.length_replicate]; rfl)

theorem test_wellFormed_instruction : Instr.wellFormed (.drwVxVyN 15 15 15) = true := by decide

theorem test_opcodeTable_length : opcodeTable.length = 34 := by decide

theorem test_memory_not_canonical :
    Memory.wf [(4096, 1)] = false ∧ Memory.wf [(5, 0)] = false ∧ Memory.wf [(5, 1), (5, 2)] = false ∧
    Memory.wf [(6, 1), (5, 2)] = false ∧ Memory.wf [(5, 1), (4095, 2)] = true := by decide

/-! ### One step each -/

/-- The convention of 95_test_vectors.md: phase Running, everything else as reset leaves it, the word at PC. -/
def start (op : Word) : State := State.reset.placeWord op

/-- The same with another PC. -/
def startAt (pc op : Word) : State := (State.reset.jumpTo pc).placeWord op

/-- The state with bytes at an address. -/
def State.withBytes (s : State) (base : Nat) (bytes : List Byte) : State :=
  { s with mem := Memory.writeBytes s.mem base bytes }

/-- The state a step answers, if it answers one. -/
def nextOf (o : StepOutcome) : Option State :=
  match o with
  | .next t => some t
  | .fault _ => none
  | .refused _ => none

/-- What a test looks at after one step. -/
def look {α : Type} (s : State) (f : State → α) : Option α := (nextOf (step s)).map f

/-- A step that raises changes the latch alone. -/
def raises (s : State) (f : Fault) : Bool := nextOf (step s) == some { s with fault := some f }

-- V-F7, V-F9
theorem test_ret : look { startAt 0x020C 0x00EE with sp := 1, stack := (Vector.replicate 16 0).set 0 0x0206 }
    (fun t => (t.pc, t.sp, t.stack[0])) = some (0x0206, 0, 0x0206) := by decide

theorem test_ret_underflow : raises (start 0x00EE) .stackUnderflow = true := by decide

-- V-F2, V-F3
theorem test_jp_self_ticks : look { start 0x1200 with dt := 2 } (fun t => (t.pc, t.dt)) = some (0x0200, 1) := by decide

theorem test_jp_top : look (start 0x1FFF) (fun t => t.pc) = some 0x0FFF := by decide

-- V-F5, V-F6
theorem test_call_deepest : look { startAt 0x0FFE 0x2FFE with sp := 15 } (fun t => (t.pc, t.sp, t.stack[15])) =
    some (0x0FFE, 16, 0x1000) := by decide

theorem test_call_overflow : raises { start 0x2300 with sp := 16 } .stackOverflow = true := by decide

-- V-F11
theorem test_jpV0_not_reduced : look ((start 0xBFFF).writeV 0 0xFF) (fun t => t.pc) = some 0x10FE := by decide

-- V-S1, V-S3
theorem test_se_literal : look (startAt 0x0208 0x3000) (fun t => t.pc) = some 0x020C := by decide

theorem test_se_literal_past_top : look ((startAt 0x0FFC 0x3F01).writeV 15 1) (fun t => t.pc) = some 0x1000 := by decide

-- V-S4, V-S5
theorem test_sne_literal : look ((startAt 0x0300 0x4A10).writeV 0xA 0x11) (fun t => t.pc) = some 0x0304 := by decide

theorem test_sne_literal_equal : look ((startAt 0x0300 0x4A10).writeV 0xA 0x10) (fun t => t.pc) = some 0x0302 := by
  decide

-- V-S7, V-S8
theorem test_se_registers : look (((start 0x5120).writeV 1 7).writeV 2 8) (fun t => t.pc) = some 0x0202 := by decide

theorem test_se_same_register : look (start 0x5000) (fun t => t.pc) = some 0x0204 := by decide

-- V-S9, V-S11
theorem test_sne_registers : look (((start 0x9120).writeV 1 7).writeV 2 8) (fun t => t.pc) = some 0x0204 := by decide

theorem test_sne_same_register : look (start 0x9000) (fun t => t.pc) = some 0x0202 := by decide

-- V-S13, V-S17
theorem test_skp_pressed : look { (start 0xE09E).writeV 0 0x0F with keys := (Vector.replicate 16 false).set 15 true }
    (fun t => t.pc) = some 0x0204 := by decide

theorem test_skp_index : raises ((start 0xE09E).writeV 0 0x10) (.keyIndexOutOfRange 16) = true := by decide

-- V-S15, V-S18
theorem test_sknp_released : look (start 0xE0A1) (fun t => t.pc) = some 0x0204 := by decide

theorem test_sknp_index : raises ((start 0xE0A1).writeV 0 0xFF) (.keyIndexOutOfRange 255) = true := by decide

-- V-A1
theorem test_ld_literal : look (start 0x6A2F) (fun t => (t.readV 0xA, t.pc)) = some (0x2F, 0x0202) := by decide

-- V-A2, V-A4
theorem test_add_literal_no_flag : look ((start 0x70FF).writeV 0 5) (fun t => (t.readV 0, t.readV 15)) = some (4, 0) := by
  decide

theorem test_add_literal_to_VF : look ((start 0x7F01).writeV 15 0xFF) (fun t => t.readV 15) = some 0 := by decide

-- V-A5
theorem test_ld_register : look ((start 0x8EF0).writeV 15 1) (fun t => (t.readV 14, t.readV 15)) = some (1, 1) := by decide

-- V-A6, V-A7, V-A8
theorem test_or_keeps_VF : look ((((start 0x8121).writeV 1 0x0F).writeV 2 0xF0).writeV 15 1)
    (fun t => (t.readV 1, t.readV 15)) = some (0xFF, 1) := by decide

theorem test_and : look (((start 0x8122).writeV 1 0x3C).writeV 2 0x0F) (fun t => t.readV 1) = some 0x0C := by decide

theorem test_xor : look (((start 0x8123).writeV 1 0xFF).writeV 2 0x0F) (fun t => t.readV 1) = some 0xF0 := by decide

-- V-A11, V-A14
theorem test_add_255 : look (((start 0x8014).writeV 0 0xFE).writeV 1 1) (fun t => (t.readV 0, t.readV 15)) =
    some (0xFF, 0) := by decide

theorem test_add_into_VF : look (((start 0x8F14).writeV 15 0xFF).writeV 1 2) (fun t => t.readV 15) = some 1 := by decide

-- V-A17, V-A22
theorem test_sub_borrow : look (((start 0x8015).writeV 0 5).writeV 1 7) (fun t => (t.readV 0, t.readV 15)) =
    some (0xFE, 0) := by decide

theorem test_sub_into_VF : look (((start 0x8F15).writeV 15 5).writeV 1 7) (fun t => t.readV 15) = some 0 := by decide

-- V-A23, V-A26
theorem test_shr_in_place : look (((start 0x8106).writeV 1 5).writeV 0 0xFF) (fun t => (t.readV 1, t.readV 15, t.readV 0)) =
    some (2, 1, 0xFF) := by decide

theorem test_shr_VF : look ((start 0x8F06).writeV 15 3) (fun t => t.readV 15) = some 1 := by decide

-- V-A27, V-A28
theorem test_subn : look (((start 0x8017).writeV 0 5).writeV 1 7) (fun t => (t.readV 0, t.readV 15)) = some (2, 1) := by
  decide

theorem test_subn_borrow : look (((start 0x8017).writeV 0 7).writeV 1 5) (fun t => (t.readV 0, t.readV 15)) =
    some (0xFE, 0) := by decide

-- V-A30, V-A34
theorem test_shl : look ((start 0x810E).writeV 1 0x81) (fun t => (t.readV 1, t.readV 15)) = some (2, 1) := by decide

theorem test_shl_VF : look ((start 0x8F0E).writeV 15 1) (fun t => t.readV 15) = some 0 := by decide

-- V-A35: whatever the byte drawn, the bits outside the mask are 0 and one byte is taken
theorem test_rnd : look (start 0xC30F) (fun t => (t.readV 3, t.draws)) = some (Config.freeByte 0 &&& 0x0F, 1) := by rfl

-- V-M2
theorem test_ld_index : look { start 0xAFFF with i := 0xFFFF } (fun t => t.i) = some 0x0FFF := by decide

-- V-M3, V-M4
theorem test_add_index : look { (start 0xF21E).writeV 2 5 with i := 0x0FFE } (fun t => (t.i, t.readV 15)) =
    some (0x1003, 0) := by decide

theorem test_add_index_wraps : look { (start 0xF21E).writeV 2 2 with i := 0xFFFF } (fun t => (t.i, t.readV 15)) =
    some (1, 0) := by decide

-- V-M6, V-M8
theorem test_glyph : look ((start 0xF029).writeV 0 0x0A) (fun t => t.i) = some 0x0032 := by decide

theorem test_glyph_whole_byte : look ((start 0xF029).writeV 0 0xFF) (fun t => t.i) = some 0x04FB := by decide

-- V-M10, V-M12
theorem test_bcd_top : look { (start 0xF033).writeV 0 0xFF with i := 0x0FFD }
    (fun t => (t.byteAt 0xFFD, t.byteAt 0xFFE, t.byteAt 0xFFF, t.i)) = some (2, 5, 5, 0x0FFD) := by decide

theorem test_bcd_out_of_range : raises { (start 0xF033).writeV 0 7 with i := 0x0FFE } (.memOutOfRange 0x1000) = true := by
  decide

-- V-M14, V-M16
theorem test_store_block : look { ((start 0xF155).writeV 0 0xAA).writeV 1 0xBB with i := 0x0400 }
    (fun t => (t.byteAt 0x400, t.byteAt 0x401, t.byteAt 0x402, t.i)) = some (0xAA, 0xBB, 0, 0x0400) := by decide

theorem test_store_block_out_of_range : raises { (start 0xFF55).writeV 0 1 with i := 0x0FF1 } (.memOutOfRange 0x1000) =
    true := by decide

-- V-M17, V-M19
theorem test_load_block : look { State.withBytes ((start 0xF265).writeV 3 0x77) 0x300 [1, 5, 6] with i := 0x0300 }
    (fun t => (t.readV 0, t.readV 1, t.readV 2, t.readV 3, t.i)) = some (1, 5, 6, 0x77, 0x0300) := by decide

theorem test_load_block_out_of_range :
    raises { State.withBytes (start 0xF165) 0xFFF [0x42] with i := 0x0FFF } (.memOutOfRange 0x1000) = true := by decide

-- V-D11
theorem test_cls : look { (start 0x00E0).writeV 15 1 with fb := flipPixel clearFramebuffer 3 4 }
    (fun t => (decide (t.fb = clearFramebuffer), t.readV 15)) = some (true, 1) := by decide

/-- A picture with the pixels of a list lit. -/
def lit (pixels : List (Fin 32 × Fin 64)) : Framebuffer :=
  pixels.foldl (fun fb p => flipPixel fb p.1 p.2) clearFramebuffer

-- V-D1, V-D2
theorem test_drw_wraps :
    look { State.withBytes (((start 0xD012).writeV 0 62).writeV 1 31) 0x20E [0xC3, 0x81] with i := 0x020E }
      (fun t => (decide (t.fb = lit [(31, 62), (31, 63), (31, 4), (31, 5), (0, 62), (0, 5)]), t.readV 15)) =
    some (true, 0) := by decide

theorem test_drw_collides :
    look { State.withBytes ((start 0xD011).writeV 15 0) 0x300 [0xF0] with i := 0x0300, fb := lit [(0, 3), (0, 4)] }
      (fun t => (decide (t.fb = lit [(0, 0), (0, 1), (0, 2), (0, 4)]), t.readV 15)) = some (true, 1) := by decide

-- V-K1
theorem test_key_wait : look { (startAt 0x020A 0xF20A).writeV 2 9 with dt := 3 }
    (fun t => (t.waiting, t.keyReg, t.pc, t.readV 2, t.dt)) = some (true, 2, 0x020C, 9, 2) := by decide

-- V-T5
theorem test_read_delay : look { start 0xF107 with dt := 2 } (fun t => (t.readV 1, t.dt)) = some (2, 1) := by decide

-- V-T1, V-T4
theorem test_write_delay : look ((start 0xF015).writeV 0 3) (fun t => t.dt) = some 2 := by decide

theorem test_write_delay_255 : look ((start 0xF015).writeV 0 0xFF) (fun t => t.dt) = some 254 := by decide

-- V-T8
theorem test_write_sound : look { (start 0xF318).writeV 3 0x10 with dt := 5 } (fun t => (t.st, t.dt)) = some (15, 4) := by
  decide

/-! ### Fetch, reset and the host -/

-- S3
theorem test_fetch : (State.withBytes { State.reset with pc := 2 } 2 [0x7E, 0x81]).fetchWord = .ok 0x7E81 := by decide

-- V-X1, V-X2, V-X5
theorem test_fetch_top : look (startAt 0x0FFE 0x6012) (fun t => (t.readV 0, t.pc)) = some (0x12, 0x1000) := by decide

theorem test_fetch_past_top : raises { start 0x6012 with pc := 0x0FFF } (.memOutOfRange 0x1000) = true := by decide

theorem test_fetch_odd : look (startAt 0x0201 0x6A2F) (fun t => (t.readV 0xA, t.pc)) = some (0x2F, 0x0203) := by decide

-- V-H8: untouched memory is an illegal word
theorem test_empty_memory : raises (start 0x0000) (.illegalOpcode 0x0000 0x0200) = true := by decide

-- V-H2
theorem test_reset_refuses_a_cycle : step State.reset = .refused .cycleNotRunning := rfl

/-- The word a table row gives is decoded and is what the next step runs. -/
theorem test_withFetchWord :
    decodeTableWord 16 0x6A2F = some (.ldVxKk 0xA 0x2F) ∧
    look (State.reset.withFetchWord 16 0x6A2F) (fun t => t.readV 0xA) = some 0x2F := by decide

-- V-H4, V-H5, V-H10
theorem test_lifecycle_refusals :
    act (.loadProgram []) State.reset = .refused .loadNotReady ∧
    act (.initializeFont Config.defaultFont) { State.reset with phase := .ready } = .refused .initializeNotIdle ∧
    act (.keyResolve 3) (start 0x6000) = .refused .keyResolveNotWaiting := ⟨rfl, rfl, rfl⟩

-- V-H3
theorem test_font : (nextOf (act (.initializeFont Config.defaultFont) State.reset)).map
    (fun t => (t.phase, t.byteAt 0, t.byteAt 5, t.byteAt 0x4B, t.byteAt 0x4F, t.byteAt 0x50)) =
    some (.ready, 0xF0, 0x20, 0xF0, 0x80, 0) := by decide +kernel

-- V-K4
theorem test_key_resolve : (nextOf (act (.keyResolve 0xA) { start 0x6000 with waiting := true, keyReg := 15 })).map
    (fun t => (t.readV 15, t.waiting)) = some (0x0A, false) := by decide

/-! ### Witnesses: the hypotheses of each statement that has some are met together, clause by clause -/

theorem witness_EncodeOfDecodeIsTheWord :
    decodeWord 0x00E0 = some .cls ∧ decodeWord 0xDABF = some (.drwVxVyN 0xA 0xB 0xF) := by decide

theorem witness_DecoderFollowsTheOpcodeMap :
    decodeWord 0x8ABE = some (.shlVxVy 0xA 0xB) ∧ OpRow.mk 0xF000 0x1000 ∈ opcodeTable ∧
    (OpRow.mk 0xF000 0x1000).selects 0x1FFF = true := by decide

theorem witness_FetchIsBigEndianAndChecked :
    { State.reset with pc := 0x0FFE }.pc.toNat ≤ 0xFFE ∧ 0xFFE < { State.reset with pc := 0x0FFF }.pc.toNat := by decide

theorem witness_StepRunsTheDecodedInstruction :
    (startAt 0x0FFE 0x00EE).admitted ∧ (startAt 0x0FFE 0x00EE).pc.toNat ≤ 0xFFE ∧
    decodeBytes [(startAt 0x0FFE 0x00EE).byteAt 0xFFE, (startAt 0x0FFE 0x00EE).byteAt 0xFFF] = .decoded .ret [] ∧
    (∃ t, exec .ret (startAt 0x0FFE 0x00EE) = .next t ∧ t.fault ≠ none) ∧
    (∃ t, exec .ret { startAt 0x0FFE 0x00EE with sp := 1 } = .next t ∧ t.fault = none) :=
  ⟨by decide, by decide, by decide, ⟨_, rfl, by decide⟩, ⟨_, rfl, by decide⟩⟩

theorem witness_FetchAndDecodeFaultsAreLatched :
    ({ start 0x00EE with pc := 0x0FFF }.admitted ∧ 0xFFE < { start 0x00EE with pc := 0x0FFF }.pc.toNat) ∧
    ((startAt 0x0FFE 0xFFFF).admitted ∧ (startAt 0x0FFE 0xFFFF).pc.toNat ≤ 0xFFE ∧
      wordOfBytes ((startAt 0x0FFE 0xFFFF).byteAt 0xFFE) ((startAt 0x0FFE 0xFFFF).byteAt 0xFFF) = 0xFFFF ∧
      legalWord 0xFFFF = false) := by decide

theorem witness_LatchedFaultStopsAllButResetAndReads :
    { State.reset with fault := some .stackOverflow }.fault = some .stackOverflow ∧ HostAction.cycle ≠ .reset ∧
    HostAction.cycle ≠ .readFramebuffer ∧ HostAction.cycle ≠ .readWait := by decide

theorem witness_AdmittedStepsAlwaysAnswerAState : (start 0x00EE).admitted := by decide

theorem witness_FaultingStepChangesOnlyTheLatch : ∃ t, step (start 0x00EE) = .next t ∧ t.fault ≠ none :=
  ⟨_, rfl, by decide⟩

theorem witness_EveryFaultHasItsInstructionAndCondition :
    (start 0).good ∧
    (∃ t, exec .ret (start 0) = .next t ∧ t.fault = some .stackUnderflow) ∧
    (∃ t, exec (.call 0) { start 0 with sp := 16 } = .next t ∧ t.fault = some .stackOverflow) ∧
    (∃ t, exec (.call 0) { start 0 with sp := 15 } = .next t ∧ t.fault = none) ∧
    (∃ t, exec (.skpVx 0) ((start 0).writeV 0 16) = .next t ∧ t.fault = some (.keyIndexOutOfRange 16)) ∧
    (∃ t, exec (.sknpVx 0) ((start 0).writeV 0 15) = .next t ∧ t.fault = none) ∧
    (∃ t, exec (.drwVxVyN 0 0 1) { start 0 with i := 0x1000 } = .next t ∧ t.fault = some (.memOutOfRange 0x1000)) ∧
    (∃ t, exec (.drwVxVyN 0 0 0) { start 0 with i := 0xFFFF } = .next t ∧ t.fault = none) ∧
    (∃ t, exec (.ldBVx 0) { start 0 with i := 0x0FFE } = .next t ∧ t.fault = some (.memOutOfRange 0x1000)) ∧
    (∃ t, exec (.ldMemVx 15) { start 0 with i := 0x0FF0 } = .next t ∧ t.fault = none) ∧
    (∃ t, exec (.ldVxMem 1) { start 0 with i := 0x0FFF } = .next t ∧ t.fault = some (.memOutOfRange 0x1000)) :=
  ⟨by decide, ⟨_, rfl, rfl⟩, ⟨_, rfl, rfl⟩, ⟨_, rfl, rfl⟩, ⟨_, rfl, rfl⟩, ⟨_, rfl, rfl⟩, ⟨_, rfl, rfl⟩, ⟨_, rfl, rfl⟩,
    ⟨_, rfl, rfl⟩, ⟨_, rfl, rfl⟩, ⟨_, rfl, rfl⟩⟩

theorem witness_TimersTickOnceEveryCycle :
    (∃ t, step (start 0xF015) = .next t ∧ t.good ∧ (start 0xF015).fetchInstr = .ok (.ldDtVx 0) ∧
      ∀ x, Instr.ldDtVx 0 ≠ .ldStVx x) ∧
    (∃ t, step (start 0xF018) = .next t ∧ t.good ∧ (start 0xF018).fetchInstr = .ok (.ldStVx 0) ∧
      ∀ x, Instr.ldStVx 0 ≠ .ldDtVx x) :=
  ⟨⟨_, rfl, by decide, by decide, nofun⟩, ⟨_, rfl, by decide, by decide, nofun⟩⟩

theorem witness_ProgramCounterMovesByTwoOrFour :
    (start 0).good ∧
    (∃ t, exec .cls (start 0) = .next t ∧ t.good ∧ setsPcDirectly .cls = false ∧ isSkip .cls = false) ∧
    (∃ t, exec (.skpVx 0) (start 0) = .next t ∧ t.good ∧ setsPcDirectly (.skpVx 0) = false ∧
      isSkip (.skpVx 0) = true) :=
  ⟨rfl, ⟨_, rfl, rfl, rfl, rfl⟩, ⟨_, rfl, rfl, rfl, rfl⟩⟩

theorem witness_OnlyNamedRegistersAreWritten :
    (∃ t, exec (.addVxVy 1 2) (start 0) = .next t) ∧ mayWriteV (.addVxVy 1 2) 2 = false ∧
    (∃ t, exec (.ldVxMem 14) (start 0) = .next t) ∧ mayWriteV (.ldVxMem 14) 15 = false :=
  ⟨⟨_, rfl⟩, by decide, ⟨_, rfl⟩, by decide⟩

theorem witness_OnlyTwoInstructionsStore :
    (∃ t, exec (.ldVxMem 1) (start 0) = .next t) ∧ (∀ x, Instr.ldVxMem 1 ≠ .ldBVx x) ∧
    (∀ x, Instr.ldVxMem 1 ≠ .ldMemVx x) := ⟨⟨_, rfl⟩, nofun, nofun⟩

theorem witness_OnlyClearAndDrawChangeTheFramebuffer :
    (∃ t, act .cycle (start 0x6000) = .next t) ∧ HostAction.cycle ≠ .reset ∧ (start 0x6000).fetchInstr ≠ .ok .cls ∧
    ∀ x y n, (start 0x6000).fetchInstr ≠ .ok (.drwVxVyN x y n) := by
  have h : (start 0x6000).fetchInstr = .ok (.ldVxKk 0 0) := by decide
  exact ⟨⟨_, rfl⟩, nofun, by rw [h]; nofun, by rw [h]; nofun⟩

theorem witness_OnlySetKeysWritesTheLatch :
    (∃ t, act .cycle (start 0x6000) = .next t) ∧ HostAction.cycle ≠ .reset ∧ ∀ ks, HostAction.cycle ≠ .setKeys ks :=
  ⟨⟨_, rfl⟩, nofun, nofun⟩

theorem witness_WaitFlagHasOneSetterAndOneClearer :
    (∃ t, act .cycle (start 0xF50A) = .next t ∧ (start 0xF50A).waiting = false ∧ t.waiting = true ∧
      t.keyReg ≠ (start 0xF50A).keyReg) ∧
    (∃ t, act (.keyResolve 0) { start 0 with waiting := true } = .next t ∧ t.waiting = false) :=
  ⟨⟨_, rfl, rfl, rfl, by decide⟩, ⟨_, rfl, rfl⟩⟩

theorem witness_OnlyCallAndReturnTouchTheStack :
    (∃ t, exec (.jp 0) (start 0) = .next t) ∧ (∀ nnn, Instr.jp 0 ≠ .call nnn) ∧ Instr.jp 0 ≠ .ret :=
  ⟨⟨_, rfl⟩, nofun, nofun⟩

theorem witness_OnlyThreeInstructionsWriteI :
    (∃ t, exec (.ldMemVx 15) (start 0) = .next t) ∧ (∀ nnn, Instr.ldMemVx 15 ≠ .ldINnn nnn) ∧
    (∀ x, Instr.ldMemVx 15 ≠ .addIVx x) ∧ (∀ x, Instr.ldMemVx 15 ≠ .ldFVx x) := ⟨⟨_, rfl⟩, nofun, nofun, nofun⟩

theorem witness_PhaseAndLatchMoveAsTheLifecycleSays :
    (∃ t, act (.loadProgram []) { State.reset with phase := .ready } = .next t) ∧ HostAction.loadProgram [] ≠ .reset ∧
    (∃ t, act .readWait { State.reset with fault := some .stackOverflow } = .next t) ∧
    { State.reset with fault := some .stackOverflow }.fault ≠ none := ⟨⟨_, rfl⟩, nofun, ⟨_, rfl⟩, nofun⟩

theorem witness_StepKeepsMemoryCanonical :
    { start 0xF033 with i := 0x0FFD }.memoryCanonical ∧ ∃ t, step { start 0xF033 with i := 0x0FFD } = .next t :=
  ⟨by decide, ⟨_, rfl⟩⟩

theorem witness_StepKeepsAddressesBounded :
    { startAt 0x0FFE 0x2FFE with sp := 15 }.addressesBounded ∧
    ∃ t, step { startAt 0x0FFE 0x2FFE with sp := 15 } = .next t := ⟨by decide, ⟨_, rfl⟩⟩

theorem witness_HostActionsKeepTheInvariants :
    { State.reset with phase := .ready }.memoryCanonical ∧ { State.reset with phase := .ready }.addressesBounded ∧
    ∃ t, actAll [.loadProgram [0x12, 0x00], .cycle, .readWait] { State.reset with phase := .ready } = .next t :=
  ⟨rfl, by decide, ⟨_, rfl⟩⟩

theorem witness_EqualReadsMeanEqualMemories :
    Memory.wf [(0, 1), (4095, 2)] = true ∧ ∀ a, Memory.read [(0, 1), (4095, 2)] a = Memory.read [(0, 1), (4095, 2)] a :=
  ⟨by decide, fun _ => rfl⟩

theorem witness_SoundTimerIsNeverObserved :
    (∃ t, step { start 0x6000 with st := 255 } = .next t) ∧
    (∃ f, step { start 0x6000 with fault := some .stackOverflow } = .fault f) ∧ (∃ r, step State.reset = .refused r) :=
  ⟨⟨_, rfl⟩, ⟨_, rfl⟩, ⟨_, rfl⟩⟩

theorem witness_WaitFlagDoesNotGateACycle :
    (∃ t, step { start 0xF50A with waiting := true } = .next t) ∧
    (∃ f, step { start 0x6000 with fault := some .stackOverflow } = .fault f) ∧ (∃ r, step State.reset = .refused r) :=
  ⟨⟨_, rfl⟩, ⟨_, rfl⟩, ⟨_, rfl⟩⟩

theorem witness_FramebufferIsSeenOnlyByADraw :
    (∀ x y n, Instr.cls ≠ .drwVxVyN x y n) ∧ ∃ t, exec .cls (start 0) = .next t := ⟨nofun, ⟨_, rfl⟩⟩

theorem witness_CallPushesOrOverflows :
    { start 0 with sp := 15 }.sp.val < 16 ∧ { start 0 with sp := 16 }.sp.val = 16 := by decide

theorem witness_ReturnPopsOrUnderflows : 0 < { start 0 with sp := 16 }.sp.val ∧ (start 0).sp.val = 0 := by decide

theorem witness_ReturnsComeBackInReverseOrder : { start 0 with sp := 14 }.sp.val ≤ 14 := by decide

theorem witness_RegisterSkipsTestEquality : (0xF : Nibble) ≠ 0x0 := by decide

theorem witness_KeySkipsTestTheLatch :
    (((start 0).writeV 0 15).readV 0).toNat < 16 ∧ 15 < (((start 0).writeV 0 16).readV 0).toNat := by decide

theorem witness_DecimalDigitsAreStored :
    { start 0 with i := 0x0FFD }.i.toNat + 2 ≤ 0xFFF ∧ 0xFFF < { start 0 with i := 0x0FFE }.i.toNat + 2 := by decide

theorem witness_BlockOfRegistersIsStored :
    { start 0 with i := 0x0FF0 }.i.toNat + (15 : Reg).val ≤ 0xFFF ∧
    0xFFF < { start 0 with i := 0x0FF1 }.i.toNat + (15 : Reg).val := by decide

theorem witness_BlockOfRegistersIsLoaded :
    { start 0 with i := 0x0FFF }.i.toNat + (0 : Reg).val ≤ 0xFFF ∧
    0xFFF < { start 0 with i := 0x0FFF }.i.toNat + (1 : Reg).val := by decide

theorem witness_NextFetchSeesTheStore :
    { startAt 0x0FFC 0xF155 with i := 0x0FFE }.admitted ∧
    { startAt 0x0FFC 0xF155 with i := 0x0FFE }.fetchInstr = .ok (.ldMemVx 1) ∧
    { startAt 0x0FFC 0xF155 with i := 0x0FFE }.i = { startAt 0x0FFC 0xF155 with i := 0x0FFE }.pc + 2 ∧
    { startAt 0x0FFC 0xF155 with i := 0x0FFE }.pc.toNat ≤ 0xFFC ∧
    ∃ t, step { startAt 0x0FFC 0xF155 with i := 0x0FFE } = .next t :=
  ⟨by decide, by decide, by decide, by decide, ⟨_, rfl⟩⟩

/-- A sprite of one byte with its leftmost bit set, to be drawn at (0, 0) on a given picture. -/
def spriteAtOrigin (fb : Framebuffer) : State := { State.withBytes (start 0) 0x300 [0x80] with i := 0x0300, fb := fb }

theorem witness_SpriteCovers (fb : Framebuffer) :
    SpriteCovers (spriteAtOrigin fb) 0 0 1 0 0 ∧ ¬SpriteCovers (spriteAtOrigin fb) 0 0 1 1 0 := by
  have hb : BitVec.getLsbD (Memory.read (Memory.writeBytes (start 0).mem 0x300 [0x80]) 0x300) 7 = true := by decide
  refine ⟨⟨0, 0, by decide, by decide, rfl, rfl, hb⟩, ?_⟩
  rintro ⟨r, c, hr, _, h, _⟩
  have hr' : r < 1 := hr
  have h0 : ((spriteAtOrigin fb).readV 0).toNat = 0 := rfl
  rw [h0, show r = 0 by omega] at h
  exact absurd h (by decide)

theorem witness_DrawFlipsExactlyTheCoveredPixels :
    (0 < (2 : Nibble).toNat ∧ 0xFFF < { start 0 with i := 0x0FFF }.i.toNat + ((2 : Nibble).toNat - 1)) ∧
    { start 0 with i := 0x0FFE }.i.toNat + ((2 : Nibble).toNat - 1) ≤ 0xFFF ∧ (0 : Nibble).toNat = 0 ∧
    (spriteAtOrigin (lit [(0, 0)])).pixel 0 0 = true ∧ (spriteAtOrigin clearFramebuffer).pixel 0 0 = false := by decide

theorem witness_DrawingTwiceRestoresThePicture :
    (spriteAtOrigin clearFramebuffer).good ∧ (0 : Reg) ≠ regF ∧
    ∃ t, exec (.drwVxVyN 0 0 1) (spriteAtOrigin clearFramebuffer) = .next t ∧ t.good ∧ t.readV regF = 0x00 :=
  ⟨rfl, by decide, ⟨_, rfl, rfl, by decide⟩⟩

theorem witness_TimerMovesReadAndWrite :
    (start 0xFF15).admitted ∧ (start 0xFF15).fetchInstr = .ok (.ldDtVx 15) ∧
    (start 0xF018).admitted ∧ (start 0xF018).fetchInstr = .ok (.ldStVx 0) := by decide

theorem witness_StartUpLoadsFontAndImage :
    (List.replicate 3584 (0x12 : Byte)).length ≤ 3584 ∧ ([] : List Byte).length ≤ 3584 := by
  rw [List.length_replicate]; decide

theorem witness_LifecycleRefusesAndFaults :
    State.reset.good ∧ { State.reset with phase := .ready }.phase = .ready ∧
    3584 < (List.replicate 3585 (0 : Byte)).length ∧ { State.reset with phase := .ready }.phase ≠ .idle ∧
    State.reset.phase ≠ .ready ∧ State.reset.phase ≠ .running := by
  rw [List.length_replicate]; decide

theorem witness_SetKeysAndFramebufferReads : State.reset.good := rfl

theorem witness_KeyResolveWritesTheWaitingRegister :
    { start 0 with waiting := true }.good ∧ { start 0 with waiting := true }.waiting = true ∧
    { start 0 with waiting := true }.phase = .running ∧ (start 0).waiting = false ∧ State.reset.phase ≠ .running := by
  decide

theorem witness_PausingHostFreezesAWaitingCore :
    { start 0 with waiting := true }.admitted ∧
    HostAction.reset ∉ [HostAction.setKeys (Vector.replicate 16 true), .readWait] ∧
    (∀ k, HostAction.keyResolve k ∉ [HostAction.setKeys (Vector.replicate 16 true), .readWait]) ∧
    pausesOnWait [.setKeys (Vector.replicate 16 true), .readWait] { start 0 with waiting := true } = true ∧
    ∃ t, actAll [.setKeys (Vector.replicate 16 true), .readWait] { start 0 with waiting := true } = .next t :=
  ⟨by decide, by simp, by simp, by rfl, ⟨_, rfl⟩⟩

end Sys2Proof.Tests
end

section
/-! PROOFS of the statements about the scope's notation (00_scope.md): `split`, `merge` and `merge_u16` (R12). -/

namespace Sys2Proof

/-! ### The values -/

theorem toNat_split_high (b : Byte) : (split b).1.toNat = b.toNat / 16 := by
  have := b.isLt
  simp only [split, BitVec.extractLsb'_toNat, Nat.shiftRight_eq_div_pow]
  omega

theorem toNat_split_low (b : Byte) : (split b).2.toNat = b.toNat % 16 := by
  simp only [split, BitVec.extractLsb'_toNat, Nat.shiftRight_zero]

theorem toNat_merge (h l : Nibble) : (merge h l).toNat = 16 * h.toNat + l.toNat := by
  have append : (merge h l).toNat = _ := BitVec.toNat_append h l
  rw [append, ← Nat.shiftLeft_add_eq_or_of_lt l.isLt, Nat.shiftLeft_eq, Nat.mul_comm]

theorem toNat_mergeU16 (n0 n1 n2 n3 : Nibble) :
    (mergeU16 n0 n1 n2 n3).toNat = 4096 * n0.toNat + 256 * n1.toNat + 16 * n2.toNat + n3.toNat := by
  rw [mergeU16_eq_wordOfBytes, toNat_wordOfBytes, toNat_merge, toNat_merge]
  omega

/-! ### The round trips -/

@[simp] theorem merge_split (b : Byte) : merge (split b).1 (split b).2 = b := by
  apply BitVec.eq_of_toNat_eq
  rw [toNat_merge, toNat_split_high, toNat_split_low, Nat.div_add_mod]

@[simp] theorem split_merge (h l : Nibble) : split (merge h l) = (h, l) := by
  have := l.isLt
  refine Prod.ext (BitVec.eq_of_toNat_eq ?_) (BitVec.eq_of_toNat_eq ?_)
  · rw [toNat_split_high, toNat_merge]; dsimp only; omega
  · rw [toNat_split_low, toNat_merge]; dsimp only; omega

theorem split_highByte_mergeU16 (n0 n1 n2 n3 : Nibble) : split (highByte (mergeU16 n0 n1 n2 n3)) = (n0, n1) := by
  rw [mergeU16_eq_wordOfBytes, highByte_wordOfBytes, split_merge]

theorem split_lowByte_mergeU16 (n0 n1 n2 n3 : Nibble) : split (lowByte (mergeU16 n0 n1 n2 n3)) = (n2, n3) := by
  rw [mergeU16_eq_wordOfBytes, lowByte_wordOfBytes, split_merge]

/-- Settles O2: `merge` and `merge_u16` are sums of place values, `split` is division by 16, and division undoes the
sum nibble by nibble. -/
theorem splitAndMergeRoundTrip : Obligations.SplitAndMergeRoundTrip :=
  ⟨fun b => ⟨toNat_split_high b, toNat_split_low b⟩, toNat_merge, toNat_mergeU16, merge_split,
    fun n0 n1 n2 n3 => ⟨split_highByte_mergeU16 n0 n1 n2 n3, split_lowByte_mergeU16 n0 n1 n2 n3⟩⟩

end Sys2Proof
end

section
/-! PROOFS of the statements about the flow of control (41_flow.md): the jumps 1nnn (R121) and Bnnn (R123). -/

namespace Sys2Proof.Machine

/-! ### Zero-extended operands -/

/-- Zero extension of a 12-bit literal is the 16-bit word of the same value (R8, R72). -/
theorem wordOfLiteral_eq_ofNat (nnn : Addr) : wordOfLiteral nnn = BitVec.ofNat 16 nnn.toNat :=
  (BitVec.ofNat_toNat 16 nnn).symm

@[simp] theorem toNat_wordOfLiteral (nnn : Addr) : (wordOfLiteral nnn).toNat = nnn.toNat :=
  BitVec.toNat_setWidth_of_le (by decide)

@[simp] theorem toNat_wordOfByte (b : Byte) : (wordOfByte b).toNat = b.toNat :=
  BitVec.toNat_setWidth_of_le (by decide)

/-- A literal and a byte add without a wrap: the sum is at most 0xFFF + 0xFF = 0x10FE (R123). -/
theorem toNat_wordOfLiteral_add_wordOfByte (nnn : Addr) (b : Byte) :
    (wordOfLiteral nnn + wordOfByte b).toNat = nnn.toNat + b.toNat := by
  have literal_lt := nnn.isLt
  have byte_lt := b.isLt
  have no_wrap : (wordOfLiteral nnn).toNat + (wordOfByte b).toNat < 2 ^ 16 := by
    rw [toNat_wordOfLiteral, toNat_wordOfByte]
    omega
  rw [BitVec.toNat_add_of_lt no_wrap, toNat_wordOfLiteral, toNat_wordOfByte]

/-! ### The jumps decoded and executed -/

theorem decodeNibbles_jp (n1 n2 n3 : Nibble) : decodeNibbles 0x1 n1 n2 n3 = some (.jp (literal12 n1 n2 n3)) := rfl

theorem decodeNibbles_jpV0Nnn (n1 n2 n3 : Nibble) :
    decodeNibbles 0xB n1 n2 n3 = some (.jpV0Nnn (literal12 n1 n2 n3)) := rfl

theorem exec_jp (nnn : Addr) (s : State) : exec (.jp nnn) s = .next (s.jumpTo (wordOfLiteral nnn)) := rfl

theorem exec_jpV0Nnn (nnn : Addr) (s : State) :
    exec (.jpV0Nnn nnn) s = .next (s.jumpTo (wordOfLiteral nnn + wordOfByte (s.readV 0))) := rfl

/-- A jump moves PC and nothing else. -/
theorem State.jumpTo_eq (s : State) (w : Word) : s.jumpTo w = { s with pc := w } := rfl

/-- Settles O31: the three literal nibbles decode back to `nnn`, and the jump is to `nnn` zero-extended. -/
theorem jumpSetsPc : Obligations.JumpSetsPc := by
  intro s nnn
  constructor
  · rw [decodeNibbles_jp, literal12_nibbles]
  · rw [exec_jp, State.jumpTo_eq, wordOfLiteral_eq_ofNat]

/-- Settles O32: the three literal nibbles decode back to `nnn`, and the sum of a literal and a byte stays below
2^16, so the 16-bit addition is exact. -/
theorem jumpWithOffsetAddsV0 : Obligations.JumpWithOffsetAddsV0 := by
  intro s nnn
  constructor
  · rw [decodeNibbles_jpV0Nnn, literal12_nibbles]
  · refine ⟨_, exec_jpV0Nnn nnn s, ?_, State.jumpTo_eq s _⟩
    rw [State.jumpTo_pc, toNat_wordOfLiteral_add_wordOfByte]

end Sys2Proof.Machine
end

section
/-! PROOFS of the statements about register load, arithmetic, logic and shifts (43_alu.md): 6xkk, 7xkk and 8xy0 (R140 to
R142). -/

namespace Sys2Proof.Machine

/-! ### One register written -/

/-- A write of one register followed by the advance of PC (R104) is the whole effect of an instruction that sets no
flag. -/
theorem oneRegisterWritten_writeV_advance (s : State) (x : Reg) (b : Byte) :
    OneRegisterWritten s (s.writeV x b).advance x b := by
  refine ⟨?written, ?others, ?memory, rfl⟩
  case written => rw [State.readV_advance, State.readV_writeV_same]
  case others =>
    intro r hr
    rw [State.readV_advance, State.readV_writeV_other s b hr]
  case memory =>
    intro a
    exact State.byteAt_congr (by rw [State.advance_mem, State.writeV_mem]) a

/-- Addition of bytes is the sum of their values modulo 256 (R141). -/
theorem byte_add_eq_ofNat (a b : Byte) : a + b = BitVec.ofNat 8 ((a.toNat + b.toNat) % 256) := by
  apply BitVec.eq_of_toNat_eq
  rw [BitVec.toNat_add, BitVec.toNat_ofNat, Nat.mod_mod]

/-! ### The loads and the add of a literal decoded and executed -/

theorem decodeNibbles_ldVxKk (x : Reg) (h l : Nibble) :
    decodeNibbles 0x6 (nibbleOf x) h l = some (.ldVxKk x (merge h l)) := rfl

theorem decodeNibbles_addVxKk (x : Reg) (h l : Nibble) :
    decodeNibbles 0x7 (nibbleOf x) h l = some (.addVxKk x (merge h l)) := rfl

theorem decodeNibbles_ldVxVy (x y : Reg) :
    decodeNibbles 0x8 (nibbleOf x) (nibbleOf y) 0x0 = some (.ldVxVy x y) := rfl

theorem exec_ldVxKk (x : Reg) (kk : Byte) (s : State) : exec (.ldVxKk x kk) s = .next (s.writeV x kk).advance := rfl

theorem exec_addVxKk (x : Reg) (kk : Byte) (s : State) :
    exec (.addVxKk x kk) s = .next (s.writeV x (s.readV x + kk)).advance := rfl

theorem exec_ldVxVy (x y : Reg) (s : State) : exec (.ldVxVy x y) s = .next (s.writeV x (s.readV y)).advance := rfl

/-- Settles O38: each of the three writes one register and advances PC, and what 7xkk writes is the sum of bytes, which
is the sum of their values modulo 256. -/
theorem loadAddLiteralAndMoveWriteOneRegister : Obligations.LoadAddLiteralAndMoveWriteOneRegister := by
  intro s x y h l kk
  refine ⟨decodeNibbles_ldVxKk x h l, decodeNibbles_addVxKk x h l, decodeNibbles_ldVxVy x y, ?load, ?add, ?move⟩
  case load => exact ⟨_, exec_ldVxKk x kk s, oneRegisterWritten_writeV_advance s x kk⟩
  case add =>
    rw [← byte_add_eq_ofNat]
    exact ⟨_, exec_addVxKk x kk s, oneRegisterWritten_writeV_advance s x (s.readV x + kk)⟩
  case move => exact ⟨_, exec_ldVxVy x y s, oneRegisterWritten_writeV_advance s x (s.readV y)⟩

end Sys2Proof.Machine
end

section
/-! PROOFS of the statements about the index register and memory (44_index_memory.md): Annn (R160). -/

namespace Sys2Proof.Machine

theorem decodeNibbles_ldINnn (n1 n2 n3 : Nibble) :
    decodeNibbles 0xA n1 n2 n3 = some (.ldINnn (literal12 n1 n2 n3)) := rfl

theorem exec_ldINnn (nnn : Addr) (s : State) :
    exec (.ldINnn nnn) s = .next (s.writeI (wordOfLiteral nnn)).advance := rfl

/-- A write of I followed by the advance of PC (R104) changes these two registers and nothing else. -/
theorem State.writeI_advance_eq (s : State) (w : Word) : (s.writeI w).advance = { s with i := w, pc := s.pc + 2 } := rfl

/-- Settles O44: the three literal nibbles decode back to `nnn`, and I receives `nnn` zero-extended. -/
theorem loadIndexTakesTheLiteral : Obligations.LoadIndexTakesTheLiteral := by
  intro s nnn
  constructor
  · rw [decodeNibbles_ldINnn, literal12_nibbles]
  · rw [exec_ldINnn, State.writeI_advance_eq, wordOfLiteral_eq_ofNat]

end Sys2Proof.Machine
end

section
/-! PROOFS of the statements about the display (45_display.md): 00E0 (R175). -/

namespace Sys2Proof.Machine

theorem decodeNibbles_cls : decodeNibbles 0x0 0x0 0xE 0x0 = some .cls := rfl

theorem exec_cls (s : State) : exec .cls s = .next { s with fb := clearFramebuffer }.advance := rfl

/-- A replaced framebuffer followed by the advance of PC (R104) changes these two fields and nothing else. -/
theorem State.setFramebuffer_advance_eq (s : State) (fb : Framebuffer) :
    { s with fb := fb }.advance = { s with fb := fb, pc := s.pc + 2 } := rfl

/-- A state that holds the cleared framebuffer has every pixel false. -/
theorem State.pixel_eq_false_of_fb_eq_clear {s : State} (h : s.fb = clearFramebuffer) (row : Fin 32) (col : Fin 64) :
    s.pixel row col = false := by
  rw [State.pixel, h, pixelOf_clear]

/-- Settles O50: the state after 00E0 holds the cleared framebuffer, and differs from the state before it in the
framebuffer and PC alone. -/
theorem clearUnlightsEveryPixel : Obligations.ClearUnlightsEveryPixel := by
  refine ⟨decodeNibbles_cls, fun s => ⟨_, exec_cls s, ?pixels, ?frame⟩⟩
  case pixels => exact State.pixel_eq_false_of_fb_eq_clear (State.advance_fb _)
  case frame => rw [State.setFramebuffer_advance_eq]

end Sys2Proof.Machine
end

section
/-! PROOFS of the statements about the host interface (47_host_interface.md): SetKeys (R205) and ReadFramebuffer
(R207). -/

namespace Sys2Proof.Machine

/-- Without a latched fault nothing stops a host action (R212, R220). -/
theorem State.unlessFaulted_of_good {s : State} (h : s.good) (o : StepOutcome) : s.unlessFaulted o = o := by
  rw [State.unlessFaulted, h]

/-- SetKeys asks for no fault and for no phase (R205, R212). -/
theorem act_setKeys_of_good {s : State} (h : s.good) (ks : Vector Bool 16) :
    act (.setKeys ks) s = .next { s with keys := ks } :=
  State.unlessFaulted_of_good h _

/-- ReadFramebuffer is admitted in every state, a faulted one included (R212). -/
theorem act_readFramebuffer (s : State) : act .readFramebuffer s = .next s := rfl

theorem State.observedFramebuffer_eq_fb (s : State) : s.observedFramebuffer = s.fb := rfl

/-- Settles O58: without a fault SetKeys answers the state with the latch replaced, whatever the phase; ReadFramebuffer
leaves the state as it is, and what it sees is the framebuffer. -/
theorem setKeysAndFramebufferReads : Obligations.SetKeysAndFramebufferReads := by
  intro s ks
  refine ⟨?latch, ?unchanged, ?picture⟩
  case latch => exact fun good => act_setKeys_of_good good ks
  case unchanged => exact act_readFramebuffer s
  case picture => exact State.observedFramebuffer_eq_fb s

end Sys2Proof.Machine
end

section
/-! PROOFS of the statements about the encoding (30_encoding.md): the round trips of decoder and encoder (R70 to R75) and
the opcode map (R73, R75, R76). -/

namespace Sys2Proof

/-! ### Words as their four nibbles -/

/-- `op[15:12]`, `op[11:8]`, `op[7:4]`, `op[3:0]` (R9, R70). -/
def opNibbles (op : Word) : Nibble × Nibble × Nibble × Nibble :=
  ((split (highByte op)).1, (split (highByte op)).2, (split (lowByte op)).1, (split (lowByte op)).2)

/-- Every word is the word of its four nibbles (R12). -/
theorem mergeU16_opNibbles (op : Word) :
    mergeU16 (opNibbles op).1 (opNibbles op).2.1 (opNibbles op).2.2.1 (opNibbles op).2.2.2 = op := by
  rw [mergeU16_eq_wordOfBytes, opNibbles, merge_split, merge_split, wordOfBytes_high_low]

theorem opNibbles_mergeU16 (n0 n1 n2 n3 : Nibble) : opNibbles (mergeU16 n0 n1 n2 n3) = (n0, n1, n2, n3) := by
  simp only [opNibbles, split_highByte_mergeU16, split_lowByte_mergeU16]

/-- A word decodes to what its four nibbles decode to (R82). -/
theorem decodeWord_eq (op : Word) :
    decodeWord op = decodeNibbles (opNibbles op).1 (opNibbles op).2.1 (opNibbles op).2.2.1 (opNibbles op).2.2.2 :=
  rfl

/-- The word of an instruction has the instruction's four nibbles (R70). -/
theorem opNibbles_encode (i : Instr) : opNibbles (encode i) = encodeNibbles i := opNibbles_mergeU16 ..

/-! ### Decode after encode -/

/-- The decoder inverts the four nibbles of an instruction, format by format (R71). -/
theorem decodeNibbles_encodeNibbles (i : Instr) :
    decodeNibbles (encodeNibbles i).1 (encodeNibbles i).2.1 (encodeNibbles i).2.2.1 (encodeNibbles i).2.2.2 =
      some i := by
  cases i
  case jp nnn => exact congrArg (fun a => some (Instr.jp a)) (literal12_nibbles nnn)
  case call nnn => exact congrArg (fun a => some (Instr.call a)) (literal12_nibbles nnn)
  case ldINnn nnn => exact congrArg (fun a => some (Instr.ldINnn a)) (literal12_nibbles nnn)
  case jpV0Nnn nnn => exact congrArg (fun a => some (Instr.jpV0Nnn a)) (literal12_nibbles nnn)
  case seVxKk x kk => exact congrArg (fun b => some (Instr.seVxKk x b)) (merge_split kk)
  case sneVxKk x kk => exact congrArg (fun b => some (Instr.sneVxKk x b)) (merge_split kk)
  case ldVxKk x kk => exact congrArg (fun b => some (Instr.ldVxKk x b)) (merge_split kk)
  case addVxKk x kk => exact congrArg (fun b => some (Instr.addVxKk x b)) (merge_split kk)
  case rndVxKk x kk => exact congrArg (fun b => some (Instr.rndVxKk x b)) (merge_split kk)
  all_goals rfl

theorem decodeWord_encode (i : Instr) : decodeWord (encode i) = some i := by
  rw [decodeWord_eq, opNibbles_encode, decodeNibbles_encodeNibbles]

/-- Two bytes in front decode as their word decodes (R53, R70). -/
theorem decodeBytes_of_decodeWord {high low : Byte} {i : Instr} (h : decodeWord (wordOfBytes high low) = some i)
    (rest : List Byte) : decodeBytes (high :: low :: rest) = .decoded i rest := by
  simp only [decodeBytes, h]

/-- Settles O3: the two bytes of an instruction are the bytes of its word, whose nibbles decode back format by format. -/
theorem decodeOfEncodeIsTheInstruction : Obligations.DecodeOfEncodeIsTheInstruction := by
  intro i rest
  refine decodeBytes_of_decodeWord ?_ rest
  rw [wordOfBytes_high_low, decodeWord_encode]

/-! ### Encode after decode -/

theorem encodeNibbles_of_decodeAlu {x y : Reg} {n3 : Nibble} {i : Instr} (h : decodeAlu x y n3 = some i) :
    encodeNibbles i = (0x8, nibbleOf x, nibbleOf y, n3) := by
  unfold decodeAlu at h
  split at h <;> cases h <;> rfl

theorem encodeNibbles_of_decodeMisc {x : Reg} {n2 n3 : Nibble} {i : Instr} (h : decodeMisc x n2 n3 = some i) :
    encodeNibbles i = (0xF, nibbleOf x, n2, n3) := by
  unfold decodeMisc at h
  split at h <;> cases h <;> rfl

/-- Encoding inverts the decoder on the four nibbles of a legal word. -/
theorem encodeNibbles_of_decodeNibbles {n0 n1 n2 n3 : Nibble} {i : Instr} (h : decodeNibbles n0 n1 n2 n3 = some i) :
    encodeNibbles i = (n0, n1, n2, n3) := by
  have literal (n0 : Nibble) : nibblesNNN n0 (literal12 n1 n2 n3) = (n0, n1, n2, n3) := by
    rw [nibblesNNN, literal12_high, literal12_mid, literal12_low]
  have byte (n0 : Nibble) : nibblesXKK n0 (regOf n1) (merge n2 n3) = (n0, n1, n2, n3) := by
    rw [nibblesXKK, split_merge, nibbleOf_regOf]
  unfold decodeNibbles at h
  split at h
  case h_1 => split at h <;> cases h <;> rfl
  case h_6 | h_10 => split at h <;> cases h; subst_vars; rfl
  case h_9 => exact encodeNibbles_of_decodeAlu h
  case h_15 => split at h <;> cases h <;> rfl
  case h_16 => exact encodeNibbles_of_decodeMisc h
  case h_14 => cases h; rfl
  case h_17 => cases h
  case h_2 | h_3 | h_11 | h_12 => cases h; exact literal _
  all_goals cases h; exact byte _

/-- Settles O4: the nibbles of a legal word are the nibbles of the instruction it decodes to. -/
theorem encodeOfDecodeIsTheWord : Obligations.EncodeOfDecodeIsTheWord := by
  intro op i h
  have nibbles : encodeNibbles i = opNibbles op := encodeNibbles_of_decodeNibbles (decodeWord_eq op ▸ h)
  rw [encode, nibbles]
  exact mergeU16_opNibbles op

/-! ### The opcode map -/

/-- The family `Laws.Encoded` as one statement over all instructions. -/
theorem encoded_statement (i : Instr) : Laws.Encoded.Statement i := by
  cases i
  case cls => exact Laws.Encoded.cls
  case ret => exact Laws.Encoded.ret
  case jp nnn => exact Laws.Encoded.jp nnn
  case call nnn => exact Laws.Encoded.call nnn
  case seVxKk x kk => exact Laws.Encoded.seVxKk x kk
  case sneVxKk x kk => exact Laws.Encoded.sneVxKk x kk
  case seVxVy x y => exact Laws.Encoded.seVxVy x y
  case ldVxKk x kk => exact Laws.Encoded.ldVxKk x kk
  case addVxKk x kk => exact Laws.Encoded.addVxKk x kk
  case ldVxVy x y => exact Laws.Encoded.ldVxVy x y
  case orVxVy x y => exact Laws.Encoded.orVxVy x y
  case andVxVy x y => exact Laws.Encoded.andVxVy x y
  case xorVxVy x y => exact Laws.Encoded.xorVxVy x y
  case addVxVy x y => exact Laws.Encoded.addVxVy x y
  case subVxVy x y => exact Laws.Encoded.subVxVy x y
  case shrVxVy x y => exact Laws.Encoded.shrVxVy x y
  case subnVxVy x y => exact Laws.Encoded.subnVxVy x y
  case shlVxVy x y => exact Laws.Encoded.shlVxVy x y
  case sneVxVy x y => exact Laws.Encoded.sneVxVy x y
  case ldINnn nnn => exact Laws.Encoded.ldINnn nnn
  case jpV0Nnn nnn => exact Laws.Encoded.jpV0Nnn nnn
  case rndVxKk x kk => exact Laws.Encoded.rndVxKk x kk
  case drwVxVyN x y n => exact Laws.Encoded.drwVxVyN x y n
  case skpVx x => exact Laws.Encoded.skpVx x
  case sknpVx x => exact Laws.Encoded.sknpVx x
  case ldVxDt x => exact Laws.Encoded.ldVxDt x
  case ldVxK x => exact Laws.Encoded.ldVxK x
  case ldDtVx x => exact Laws.Encoded.ldDtVx x
  case ldStVx x => exact Laws.Encoded.ldStVx x
  case addIVx x => exact Laws.Encoded.addIVx x
  case ldFVx x => exact Laws.Encoded.ldFVx x
  case ldBVx x => exact Laws.Encoded.ldBVx x
  case ldMemVx x => exact Laws.Encoded.ldMemVx x
  case ldVxMem x => exact Laws.Encoded.ldVxMem x

/-- A legal word is selected by the row of the instruction it decodes to, and that row is in the map (R73). -/
theorem row_of_decodeWord {op : Word} {i : Instr} (h : decodeWord op = some i) :
    i.row ∈ opcodeTable ∧ i.row.selects op = true := by
  obtain ⟨selects, wellFormed⟩ := encoded_statement i
  rw [encodeOfDecodeIsTheWord op i h] at selects
  rw [Instr.wellFormed, Bool.and_eq_true] at wellFormed
  exact ⟨List.contains_iff_mem.mp wellFormed.2, selects⟩

theorem OpRow.selects_iff (r : OpRow) (op : Word) : r.selects op = true ↔ op &&& r.mask = r.bits := by
  rw [OpRow.selects, beq_iff_eq]

/-- Two rows of the map whose bits agree where both masks look are one row. -/
theorem row_eq_of_bits_agree :
    ∀ r ∈ opcodeTable, ∀ r' ∈ opcodeTable, r.bits &&& r'.mask = r'.bits &&& r.mask → r = r' := by decide

/-- No word has two rows (R75). -/
theorem row_unique {r r' : OpRow} (hr : r ∈ opcodeTable) (hr' : r' ∈ opcodeTable) {op : Word}
    (h : r.selects op = true) (h' : r'.selects op = true) : r = r' := by
  rw [OpRow.selects_iff] at h h'
  refine row_eq_of_bits_agree r hr r' hr' ?_
  rw [← h, ← h', BitVec.and_assoc, BitVec.and_assoc, BitVec.and_comm r.mask]

/-- A nibble a row's mask covers is the nibble of the row's bits in every word the row selects (R73). -/
theorem fixed_nibbles_of_selects {r : OpRow} {op : Word} (h : r.selects op = true) :
    ((opNibbles r.mask).1 = 0xF → (opNibbles op).1 = (opNibbles r.bits).1) ∧
    ((opNibbles r.mask).2.1 = 0xF → (opNibbles op).2.1 = (opNibbles r.bits).2.1) ∧
    ((opNibbles r.mask).2.2.1 = 0xF → (opNibbles op).2.2.1 = (opNibbles r.bits).2.2.1) ∧
    ((opNibbles r.mask).2.2.2 = 0xF → (opNibbles op).2.2.2 = (opNibbles r.bits).2.2.2) := by
  have and_ones : ∀ n m : Nibble, m = 0xF → n &&& m = n := by decide
  rw [OpRow.selects_iff, ← mergeU16_opNibbles op, ← mergeU16_opNibbles r.mask, Laws.Encoded.mergeU16_and] at h
  rw [← h, opNibbles_mergeU16]
  exact ⟨fun m => (and_ones _ _ m).symm, fun m => (and_ones _ _ m).symm, fun m => (and_ones _ _ m).symm,
    fun m => (and_ones _ _ m).symm⟩

section
variable {r : OpRow} {op : Word} (h : r.selects op = true)
include h

theorem decodeWord_isSome_of_loads (hr : r ∈ opcodeRowsLoads) : (decodeWord op).isSome = true := by
  obtain ⟨n0, n1, n2, n3⟩ := fixed_nibbles_of_selects h
  rw [decodeWord_eq]
  simp only [opcodeRowsLoads, List.mem_cons, List.not_mem_nil, or_false] at hr
  rcases hr with rfl | rfl | rfl | rfl | rfl | rfl | rfl | rfl | rfl
  iterate 2 · rw [n0 rfl, n1 rfl, n2 rfl, n3 rfl]; rfl
  iterate 4 · rw [n0 rfl]; rfl
  · rw [n0 rfl, n3 rfl]; rfl
  iterate 2 · rw [n0 rfl]; rfl

theorem decodeWord_isSome_of_alu (hr : r ∈ opcodeRowsAlu) : (decodeWord op).isSome = true := by
  obtain ⟨n0, -, -, n3⟩ := fixed_nibbles_of_selects h
  rw [decodeWord_eq]
  simp only [opcodeRowsAlu, List.mem_cons, List.not_mem_nil, or_false] at hr
  rcases hr with rfl | rfl | rfl | rfl | rfl | rfl | rfl | rfl | rfl | rfl
  all_goals rw [n0 rfl, n3 rfl]; rfl

theorem decodeWord_isSome_of_index (hr : r ∈ opcodeRowsIndex) : (decodeWord op).isSome = true := by
  obtain ⟨n0, -, n2, n3⟩ := fixed_nibbles_of_selects h
  rw [decodeWord_eq]
  simp only [opcodeRowsIndex, List.mem_cons, List.not_mem_nil, or_false] at hr
  rcases hr with rfl | rfl | rfl | rfl | rfl | rfl
  iterate 4 · rw [n0 rfl]; rfl
  iterate 2 · rw [n0 rfl, n2 rfl, n3 rfl]; rfl

theorem decodeWord_isSome_of_misc (hr : r ∈ opcodeRowsMisc) : (decodeWord op).isSome = true := by
  obtain ⟨n0, -, n2, n3⟩ := fixed_nibbles_of_selects h
  rw [decodeWord_eq]
  simp only [opcodeRowsMisc, List.mem_cons, List.not_mem_nil, or_false] at hr
  rcases hr with rfl | rfl | rfl | rfl | rfl | rfl | rfl | rfl | rfl
  all_goals rw [n0 rfl, n2 rfl, n3 rfl]; rfl

/-- The decoder accepts the words of every row: the nibbles a row fixes are all that it looks at (R73). -/
theorem decodeWord_isSome_of_selects (hr : r ∈ opcodeTable) : (decodeWord op).isSome = true := by
  simp only [opcodeTable, List.mem_append] at hr
  rcases hr with ((loads | alu) | index) | misc
  · exact decodeWord_isSome_of_loads h loads
  · exact decodeWord_isSome_of_alu h alu
  · exact decodeWord_isSome_of_index h index
  · exact decodeWord_isSome_of_misc h misc

end

/-- A word is legal exactly when it decodes (R76). -/
theorem legalWord_eq_isSome (op : Word) : legalWord op = (decodeWord op).isSome := by
  rw [Bool.eq_iff_iff, legalWord, List.any_eq_true, Option.isSome_iff_exists]
  constructor
  · rintro ⟨r, hr, h⟩
    exact Option.isSome_iff_exists.mp (decodeWord_isSome_of_selects h hr)
  · rintro ⟨i, h⟩
    exact ⟨i.row, row_of_decodeWord h⟩

/-- Settles O5: every row's words decode, every instruction's row is the row of its word, and two rows that select one
word agree on their common mask, as no two rows of the map do. -/
theorem decoderFollowsTheOpcodeMap : Obligations.DecoderFollowsTheOpcodeMap := by
  refine ⟨fun op => ?accepted, fun op i => row_of_decodeWord, fun r hr r' hr' op => row_unique hr hr'⟩
  case accepted => rw [legalWord_eq_isSome, Option.isSome_eq_false_iff, Option.isNone_iff_eq_none]

/-- Settles O1: the decoder evaluates on the eleven words. -/
theorem decodedWordsFromTheSpec : Obligations.DecodedWordsFromTheSpec := by
  unfold Obligations.DecodedWordsFromTheSpec
  decide

end Sys2Proof
end

section
/-! PROOFS, the layer under the statements about instructions, steps and host actions: the execute stage of each
instruction as an equation, and the fields that frames, steps and actions keep. -/

namespace Sys2Proof.Machine

/-! ### The execute stage, one equation for each instruction (40_cycle.md R103)

The equations of 00E0, 1nnn, 6xkk, 7xkk, 8xy0, Annn and Bnnn stand with the proofs about them. -/

section
variable (x y : Reg) (kk : Byte) (s : State)

theorem exec_ret : exec .ret s = s.orRaise s.pop (fun p => p.2.jumpTo p.1) := rfl
theorem exec_call (nnn : Addr) :
    exec (.call nnn) s = s.orRaise (s.push (s.pc + 2)) (fun t => t.jumpTo (wordOfLiteral nnn)) := rfl
theorem exec_seVxKk : exec (.seVxKk x kk) s = .next (s.skipWhen (s.readV x == kk)) := rfl
theorem exec_sneVxKk : exec (.sneVxKk x kk) s = .next (s.skipWhen (s.readV x != kk)) := rfl
theorem exec_seVxVy : exec (.seVxVy x y) s = .next (s.skipWhen (s.readV x == s.readV y)) := rfl
theorem exec_sneVxVy : exec (.sneVxVy x y) s = .next (s.skipWhen (s.readV x != s.readV y)) := rfl
theorem exec_orVxVy : exec (.orVxVy x y) s = .next (s.writeV x (s.readV x ||| s.readV y)).advance := rfl
theorem exec_andVxVy : exec (.andVxVy x y) s = .next (s.writeV x (s.readV x &&& s.readV y)).advance := rfl
theorem exec_xorVxVy : exec (.xorVxVy x y) s = .next (s.writeV x (s.readV x ^^^ s.readV y)).advance := rfl
theorem exec_addVxVy : exec (.addVxVy x y) s =
    .next (s.writeResultFlag x (s.readV x + s.readV y) (carryOut (s.readV x) (s.readV y))).advance := rfl
theorem exec_subVxVy : exec (.subVxVy x y) s =
    .next (s.writeResultFlag x (s.readV x - s.readV y) (noBorrow (s.readV x) (s.readV y))).advance := rfl
theorem exec_shrVxVy : exec (.shrVxVy x y) s =
    .next (s.writeResultFlag x (s.readV x >>> 1) (droppedLow (s.readV x))).advance := rfl
theorem exec_subnVxVy : exec (.subnVxVy x y) s =
    .next (s.writeResultFlag x (s.readV y - s.readV x) (noBorrow (s.readV y) (s.readV x))).advance := rfl
theorem exec_shlVxVy : exec (.shlVxVy x y) s =
    .next (s.writeResultFlag x (s.readV x <<< 1) (droppedHigh (s.readV x))).advance := rfl
theorem exec_rndVxKk : exec (.rndVxKk x kk) s = .next (s.drawByte.2.writeV x (s.drawByte.1 &&& kk)).advance := rfl
theorem exec_drwVxVyN (n : Nibble) : exec (.drwVxVyN x y n) s =
    s.orRaise (s.loadBytes (s.indexAddr 0) n.toNat)
      (fun bytes => (s.showBlit (blitSprite (s.readV x) (s.readV y) bytes s.fb)).advance) := rfl
theorem exec_skpVx : exec (.skpVx x) s = s.orRaise (s.keyOperand x) (fun k => s.skipWhen (s.keyDown k)) := rfl
theorem exec_sknpVx : exec (.sknpVx x) s = s.orRaise (s.keyOperand x) (fun k => s.skipWhen (!s.keyDown k)) := rfl
theorem exec_ldVxDt : exec (.ldVxDt x) s = .next (s.writeV x s.dt).advance := rfl
theorem exec_ldVxK : exec (.ldVxK x) s = .next { s with waiting := true, keyReg := x }.advance := rfl
theorem exec_ldDtVx : exec (.ldDtVx x) s = .next { s with dt := s.readV x }.advance := rfl
theorem exec_ldStVx : exec (.ldStVx x) s = .next { s with st := s.readV x }.advance := rfl
theorem exec_addIVx : exec (.addIVx x) s = .next (s.writeI (s.i + wordOfByte (s.readV x))).advance := rfl
theorem exec_ldFVx : exec (.ldFVx x) s = .next (s.writeI (glyphAddress (s.readV x))).advance := rfl
theorem exec_ldBVx : exec (.ldBVx x) s =
    s.orRaise (s.storeBytes (s.indexAddr 0) (decimalDigits (s.readV x))) State.advance := rfl
theorem exec_ldMemVx : exec (.ldMemVx x) s =
    s.orRaise (s.storeBytes (s.indexAddr 0) (s.blockRegs x)) State.advance := rfl
theorem exec_ldVxMem : exec (.ldVxMem x) s =
    s.orRaise (s.loadBytes (s.indexAddr 0) (x.val + 1)) (fun bytes => (s.writeBlockRegs bytes).advance) := rfl

end

/-! ### The fields a frame keeps -/

section
variable {i : Instr} {s t : State} (h : execFrame i s t)
include h

theorem execFrame_keys : t.keys = s.keys := by
  cases i <;> exact (congrArg State.keys h :)

theorem execFrame_phase : t.phase = s.phase := by
  cases i <;> exact (congrArg State.phase h :)

theorem execFrame_dt (hi : ∀ x, i ≠ .ldDtVx x) : t.dt = s.dt := by
  cases i
  case ldDtVx x => exact absurd rfl (hi x)
  all_goals exact (congrArg State.dt h :)

theorem execFrame_st (hi : ∀ x, i ≠ .ldStVx x) : t.st = s.st := by
  cases i
  case ldStVx x => exact absurd rfl (hi x)
  all_goals exact (congrArg State.st h :)

theorem execFrame_waiting (hi : ∀ x, i ≠ .ldVxK x) : t.waiting = s.waiting := by
  cases i
  case ldVxK x => exact absurd rfl (hi x)
  all_goals exact (congrArg State.waiting h :)

theorem execFrame_keyReg (hi : ∀ x, i ≠ .ldVxK x) : t.keyReg = s.keyReg := by
  cases i
  case ldVxK x => exact absurd rfl (hi x)
  all_goals exact (congrArg State.keyReg h :)

theorem execFrame_fb (hcls : i ≠ .cls) (hdrw : ∀ x y n, i ≠ .drwVxVyN x y n) : t.fb = s.fb := by
  cases i
  case cls => exact absurd rfl hcls
  case drwVxVyN x y n => exact absurd rfl (hdrw x y n)
  all_goals exact (congrArg State.fb h :)

theorem execFrame_mem (hb : ∀ x, i ≠ .ldBVx x) (hm : ∀ x, i ≠ .ldMemVx x) : t.mem = s.mem := by
  cases i
  case ldBVx x => exact absurd rfl (hb x)
  case ldMemVx x => exact absurd rfl (hm x)
  all_goals exact (congrArg State.mem h :)

theorem execFrame_i (hl : ∀ nnn, i ≠ .ldINnn nnn) (ha : ∀ x, i ≠ .addIVx x) (hf : ∀ x, i ≠ .ldFVx x) : t.i = s.i := by
  cases i
  case ldINnn nnn => exact absurd rfl (hl nnn)
  case addIVx x => exact absurd rfl (ha x)
  case ldFVx x => exact absurd rfl (hf x)
  all_goals exact (congrArg State.i h :)

theorem execFrame_sp (hc : ∀ nnn, i ≠ .call nnn) (hr : i ≠ .ret) : t.sp = s.sp := by
  cases i
  case call nnn => exact absurd rfl (hc nnn)
  case ret => exact absurd rfl hr
  all_goals exact (congrArg State.sp h :)

/-- A pop reads a cell and leaves it, so only a call writes one (R29, R30). -/
theorem execFrame_stack (hc : ∀ nnn, i ≠ .call nnn) : t.stack = s.stack := by
  cases i
  case call nnn => exact absurd rfl (hc nnn)
  all_goals exact (congrArg State.stack h :)

theorem execFrame_pc (hp : setsPcDirectly i = false) (hs : isSkip i = false) : t.pc = s.pc + 2 := by
  cases i
  case ret | jp | call | jpV0Nnn => cases hp
  case seVxKk | sneVxKk | seVxVy | sneVxVy | skpVx | sknpVx => cases hs
  all_goals exact (congrArg State.pc h :)

end

/-! ### Fields that an execute stage, a step and an action keep -/

section
variable {α : Type} {field : State → α} (fault : ∀ (s : State) f, field { s with fault := some f } = field s)
include fault

/-- An execute stage keeps a field that the latch does not touch and the instruction's frame keeps. -/
theorem exec_keeps {i : Instr} {s t : State} (h : exec i s = .next t) (frame : execFrame i s t → field t = field s) :
    field t = field s := by
  rcases exec_cases h with ⟨f, rfl⟩ | hfr
  · exact fault s f
  · exact frame hfr

/-- A step keeps a field that neither the latch nor the tick touches and the frame of the decoded instruction keeps. -/
theorem step_keeps {s t : State} (h : step s = .next t) (tick : ∀ u : State, field u.tick = field u)
    (frame : ∀ i u, s.fetchInstr = .ok i → execFrame i s u → field u = field s) : field t = field s := by
  rcases step_cases h with ⟨f, rfl⟩ | ⟨i, u, hi, _, hfr, _, _, rfl⟩
  · exact fault s f
  · exact (tick u).trans (frame i u hi hfr)

end

end Sys2Proof.Machine
end

section
/-! PROOFS of the statements about the cycle (40_cycle.md): fetch and decode (R102, R103), the stages (R101), PC (R104 to
R106), the tick (R107) and precise faults (R108). -/

namespace Sys2Proof.Machine

/-! ### Fetch -/

theorem State.fetchWord_of_le {s : State} (h : s.pc.toNat ≤ 0xFFE) :
    s.fetchWord = .ok (wordOfBytes (s.byteAt s.pc.toNat) (s.byteAt (s.pc.toNat + 1))) := by
  have in_range : rangeFault s.pc.toNat 2 = none := (rangeFault_none_iff ..).mpr (.inr (by omega))
  simp only [State.fetchWord, in_range]

theorem State.fetchWord_of_lt {s : State} (h : 0xFFE < s.pc.toNat) :
    s.fetchWord = .error (.memOutOfRange (max s.pc.toNat 0x1000)) := by
  have out_of_range := rangeFault_some (base := s.pc.toNat) (count := 2) (by decide) (by omega)
  simp only [State.fetchWord, out_of_range]

/-- What is fetched and decoded is what the word of the two bytes at PC decodes to (R101 to R103). -/
theorem State.fetchInstr_of_decodeWord {s : State} (h : s.pc.toNat ≤ 0xFFE) {i : Instr}
    (hd : decodeWord (wordOfBytes (s.byteAt s.pc.toNat) (s.byteAt (s.pc.toNat + 1))) = some i) :
    s.fetchInstr = .ok i := by
  simp only [State.fetchInstr, State.fetchWord_of_le h, hd]

/-- An instruction is fetched only at a PC that both its bytes are in memory at (R102). -/
theorem State.pc_le_of_fetchInstr {s : State} {i : Instr} (h : s.fetchInstr = .ok i) : s.pc.toNat ≤ 0xFFE := by
  rcases s.fetchInstr_cases with ⟨_, e⟩ | ⟨hpc, _⟩
  · rw [e] at h; cases h
  · exact hpc

/-- Settles O6: within range the word is that of the two bytes, whose value is known; past 0xFFE the range check
answers. -/
theorem fetchIsBigEndianAndChecked : Obligations.FetchIsBigEndianAndChecked :=
  fun _ => ⟨fun h => ⟨_, State.fetchWord_of_le h, toNat_wordOfBytes ..⟩, State.fetchWord_of_lt⟩

/-! ### The stages of a step -/

theorem decodeWord_of_decodeBytes {high low : Byte} {rest rest' : List Byte} {i : Instr}
    (h : decodeBytes (high :: low :: rest) = .decoded i rest') : decodeWord (wordOfBytes high low) = some i := by
  simp only [decodeBytes] at h
  split at h
  · next hd => cases h; exact hd
  · cases h

theorem step_of_fetchInstr {s : State} (ha : s.admitted) {i : Instr} (hi : s.fetchInstr = .ok i) :
    step s = endCycle (exec i s) := by
  rw [step_admitted ha.1 ha.2, hi]

theorem step_of_fetch_error {s : State} (ha : s.admitted) {f : Fault} (hf : s.fetchInstr = .error f) :
    step s = .next { s with fault := some f } := by
  rw [step_admitted ha.1 ha.2, hf]; rfl

theorem endCycle_of_good {t : State} (h : t.good) : endCycle (.next t) = .next t.tick := by
  rw [endCycle, if_pos h]

theorem endCycle_of_fault {t : State} (h : t.fault ≠ none) : endCycle (.next t) = .next t := by
  rw [endCycle, if_neg h]

/-- Settles O7: the fetched instruction is the decoded one, and the end of the cycle ticks an unfaulted state. -/
theorem stepRunsTheDecodedInstruction : Obligations.StepRunsTheDecodedInstruction := by
  intro s i ha hpc hd
  have run : step s = endCycle (exec i s) :=
    step_of_fetchInstr ha (State.fetchInstr_of_decodeWord hpc (decodeWord_of_decodeBytes hd))
  refine ⟨run, fun t ht => ⟨fun good => ?_, fun faulted => ?_⟩⟩
  · rw [run, ht, endCycle_of_good good]; rfl
  · rw [run, ht, endCycle_of_fault faulted]

/-- Settles O8: both are errors of fetch and decode, which a step latches. -/
theorem fetchAndDecodeFaultsAreLatched : Obligations.FetchAndDecodeFaultsAreLatched := by
  intro s ha
  constructor
  · intro hpc
    refine step_of_fetch_error ha ?_
    simp only [State.fetchInstr, State.fetchWord_of_lt hpc]
  · rintro op hpc rfl illegal
    rw [legalWord_eq_isSome, Option.isSome_eq_false_iff, Option.isNone_iff_eq_none] at illegal
    refine step_of_fetch_error ha ?_
    simp only [State.fetchInstr, State.fetchWord_of_le hpc, illegal]

/-! ### Every instruction answers a state -/

theorem State.exists_orRaise {α : Type} (s : State) (r : Except Fault α) (k : α → State) :
    ∃ t, s.orRaise r k = .next t := by
  cases r with
  | error f => exact ⟨_, State.orRaise_error s f k⟩
  | ok a => exact ⟨_, State.orRaise_ok s a k⟩

theorem exec_total (i : Instr) (s : State) : ∃ t, exec i s = .next t := by
  cases i
  case ret | call | drwVxVyN | skpVx | sknpVx | ldBVx | ldMemVx | ldVxMem => exact s.exists_orRaise _ _
  all_goals exact ⟨_, rfl⟩

/-- Settles O10: an instruction completes or its checked operation raises, and either is a next state; so are a fault
of fetch or decode and the end of the cycle. -/
theorem admittedStepsAlwaysAnswerAState : Obligations.AdmittedStepsAlwaysAnswerAState := by
  refine ⟨exec_total, fun s ha => ?_⟩
  cases hi : s.fetchInstr with
  | error f => exact ⟨_, step_of_fetch_error ha hi⟩
  | ok i =>
    obtain ⟨t, ht⟩ := exec_total i s
    rw [step_of_fetchInstr ha hi, ht]
    exact ⟨_, rfl⟩

/-! ### Faults -/

/-- Settles O11: a step either changed the latch alone, or ran an instruction that raised nothing. -/
theorem faultingStepChangesOnlyTheLatch : Obligations.FaultingStepChangesOnlyTheLatch := by
  intro s t h faulted
  rcases step_cases h with ⟨f, rfl⟩ | ⟨_, u, _, _, _, _, good, rfl⟩
  · rfl
  · exact absurd good faulted

/-- A checked operation of an unfaulted state latches exactly the fault its check answers. -/
theorem State.fault_orRaise_iff {α : Type} {s t : State} {r : Except Fault α} {k : α → State} (hs : s.good)
    (h : s.orRaise r k = .next t) (f : Fault) (hk : ∀ a, r = .ok a → (k a).fault = s.fault) :
    t.fault = some f ↔ r = .error f := by
  rcases State.orRaise_next h with ⟨g, rfl, rfl⟩ | ⟨a, rfl, rfl⟩
  · simp
  · simp [hk a rfl, show s.fault = none from hs]

theorem State.loadBytes_error_iff (s : State) (base count : Nat) (f : Fault) :
    s.loadBytes base count = .error f ↔ f = .memOutOfRange (max base 0x1000) ∧ 0 < count ∧ 0x1000 < base + count := by
  rcases s.loadBytes_cases base count with ⟨h, e⟩ | ⟨h, e⟩ <;> rw [e]
  · simp only [reduceCtorEq, false_iff]; omega
  · simp only [Except.error.injEq, h, and_self, and_true, eq_comm]

theorem State.storeBytes_error_iff (s : State) {base : Nat} {bytes : List Byte} (hc : 0 < bytes.length) (f : Fault) :
    s.storeBytes base bytes = .error f ↔ f = .memOutOfRange (max base 0x1000) ∧ 0x1000 < base + bytes.length := by
  rcases s.storeBytes_cases base bytes hc with ⟨h, e⟩ | ⟨h, e⟩ <;> rw [e]
  · simp only [reduceCtorEq, false_iff]; omega
  · simp only [Except.error.injEq, h, and_true, eq_comm]

theorem State.push_error_iff (s : State) (w : Word) (f : Fault) :
    s.push w = .error f ↔ f = .stackOverflow ∧ s.sp.val = 16 := by
  rcases s.push_cases w with ⟨h, e⟩ | ⟨h, e⟩ <;> rw [e]
  · simp only [reduceCtorEq, false_iff]; omega
  · simp only [Except.error.injEq, h, and_true, eq_comm]

theorem State.pop_error_iff (s : State) (f : Fault) :
    s.pop = .error f ↔ f = .stackUnderflow ∧ s.sp.val = 0 := by
  rcases s.pop_cases with ⟨h, e⟩ | ⟨h, e⟩ <;> rw [e]
  · simp only [reduceCtorEq, false_iff]; omega
  · simp only [Except.error.injEq, h, and_true, eq_comm]

theorem State.keyOperand_error_iff (s : State) (x : Reg) (f : Fault) :
    s.keyOperand x = .error f ↔ f = .keyIndexOutOfRange (s.readV x) ∧ 15 < (s.readV x).toNat := by
  rcases s.keyOperand_cases x with ⟨h, e⟩ | ⟨h, e⟩ <;> rw [e]
  · simp only [reduceCtorEq, false_iff]; omega
  · simp only [Except.error.injEq, show 15 < (s.readV x).toNat from h, and_true, eq_comm]

theorem State.fault_of_push {s t : State} {w : Word} (h : s.push w = .ok t) : t.fault = s.fault := by
  rcases s.push_cases w with ⟨_, e⟩ | ⟨_, e⟩ <;> rw [e] at h <;> cases h
  rfl

theorem State.fault_of_pop {s : State} {p : Word × State} (h : s.pop = .ok p) : p.2.fault = s.fault := by
  rcases s.pop_cases with ⟨_, e⟩ | ⟨_, e⟩ <;> rw [e] at h <;> cases h
  rfl

/-- All a checked store that answers a state can have done: memory alone changed. -/
theorem State.eq_of_storeBytes {s t : State} {base : Nat} {bytes : List Byte} (h : s.storeBytes base bytes = .ok t) :
    t = { s with mem := Memory.writeBytes s.mem base bytes } := by
  unfold State.storeBytes at h
  split at h <;> cases h
  rfl

theorem State.fault_of_storeBytes {s t : State} {base : Nat} {bytes : List Byte} (h : s.storeBytes base bytes = .ok t) :
    t.fault = s.fault := by
  rw [State.eq_of_storeBytes h]

/-- Settles O12: the eight instructions that can fault latch what their one checked operation answers, and the others
have no checked operation. -/
theorem everyFaultHasItsInstructionAndCondition : Obligations.EveryFaultHasItsInstructionAndCondition := by
  intro i s t f good h
  cases i
  case ret =>
    exact (State.fault_orRaise_iff good h f (fun _ => State.fault_of_pop)).trans (s.pop_error_iff f)
  case call nnn =>
    exact (State.fault_orRaise_iff good h f (fun _ => State.fault_of_push)).trans (s.push_error_iff _ f)
  case skpVx x =>
    exact (State.fault_orRaise_iff good h f (fun _ _ => rfl)).trans (s.keyOperand_error_iff x f)
  case sknpVx x =>
    exact (State.fault_orRaise_iff good h f (fun _ _ => rfl)).trans (s.keyOperand_error_iff x f)
  case drwVxVyN x y n =>
    refine (State.fault_orRaise_iff good h f (fun _ _ => rfl)).trans ((s.loadBytes_error_iff _ _ f).trans ?_)
    simp only [State.indexAddr, mayRaise]
    refine and_congr_right fun _ => ?_
    omega
  case ldBVx x =>
    refine (State.fault_orRaise_iff good h f (fun _ => State.fault_of_storeBytes)).trans
      ((s.storeBytes_error_iff (bytes := decimalDigits _) (Nat.succ_pos _) f).trans ?_)
    simp only [State.indexAddr, mayRaise, decimalDigits, List.length_cons, List.length_nil]
    refine and_congr_right fun _ => ?_
    omega
  case ldMemVx x =>
    refine (State.fault_orRaise_iff good h f (fun _ => State.fault_of_storeBytes)).trans
      ((s.storeBytes_error_iff (by simp) f).trans ?_)
    simp only [State.indexAddr, mayRaise, State.length_blockRegs]
    refine and_congr_right fun _ => ?_
    omega
  case ldVxMem x =>
    refine (State.fault_orRaise_iff good h f (fun _ _ => rfl)).trans ((s.loadBytes_error_iff _ _ f).trans ?_)
    simp only [State.indexAddr, mayRaise]
    refine and_congr_right fun _ => ?_
    omega
  all_goals
    have unfaulted : t.fault = none := by cases h; exact good
    simp only [unfaulted, mayRaise, reduceCtorEq]

/-! ### Timers -/

theorem toNat_tickTimer (b : Byte) : (tickTimer b).toNat = b.toNat - 1 := by
  unfold tickTimer
  split
  · next h => rw [h]; rfl
  · next h => exact BitVec.toNat_sub_of_le (by bv_omega)

/-- Settles O13: the tick takes one from what the instruction left in each timer, and only Fx15 and Fx18 leave anything
but the old value. -/
theorem timersTickOnceEveryCycle : Obligations.TimersTickOnceEveryCycle := by
  intro s t i h good hi
  rcases step_cases h with ⟨f, rfl⟩ | ⟨j, u, hj, _, frame, _, _, rfl⟩
  · cases good
  cases hi.symm.trans hj
  rw [State.tick_dt, State.tick_st, toNat_tickTimer, toNat_tickTimer]
  refine ⟨?_, ?_, ?_, ?_⟩
  · rintro x rfl
    rw [(congrArg State.dt frame :)]
  · intro hd
    rw [execFrame_dt frame hd]
  · rintro x rfl
    rw [(congrArg State.st frame :)]
  · intro hs
    rw [execFrame_st frame hs]

/-! ### The program counter -/

/-- A skip that raises nothing is a skip advance on some condition (R105). -/
theorem exec_skip {i : Instr} {s t : State} (hs : isSkip i = true) (h : exec i s = .next t) :
    (∃ f, t = { s with fault := some f }) ∨ ∃ c, t = s.skipWhen c := by
  cases i
  case seVxKk | sneVxKk | seVxVy | sneVxVy => cases h; exact .inr ⟨_, rfl⟩
  case skpVx x => exact State.orRaise_fault_or (fun t => ∃ c, t = s.skipWhen c) (fun _ _ => ⟨_, rfl⟩) h
  case sknpVx x => exact State.orRaise_fault_or (fun t => ∃ c, t = s.skipWhen c) (fun _ _ => ⟨_, rfl⟩) h
  all_goals cases hs

/-- Settles O14: without a fault the frame gives PC + 2, or the skip advance moves PC alone by 2 or 4. -/
theorem programCounterMovesByTwoOrFour : Obligations.ProgramCounterMovesByTwoOrFour := by
  intro i s t _ h good direct
  refine ⟨fun notSkip => ?_, fun skip => ?_⟩
  · rcases exec_cases h with ⟨f, rfl⟩ | frame
    · cases good
    · exact execFrame_pc frame direct notSkip
  · rcases exec_skip skip h with ⟨f, rfl⟩ | ⟨c, rfl⟩
    · cases good
    · refine ⟨?_, rfl⟩
      cases c
      · exact .inl rfl
      · exact .inr rfl

end Sys2Proof.Machine
end

section
/-! PROOFS of the statements about who changes what (10_state.md): registers (R21, R23), memory (R50, R55), the
framebuffer (R31), the key latch (R32), the wait flag (R33), the stack (R28), I (R24), the phase and the fault latch (R35,
R36). -/

namespace Sys2Proof.Machine

/-! ### Registers -/

/-- A register after bytes are written to `V[0]`, `V[1]`, ... (R165). -/
theorem State.readV_writeBlockRegs (s : State) (bytes : List Byte) (r : Reg) :
    (s.writeBlockRegs bytes).readV r = if h : r.val < bytes.length then bytes[r.val] else s.readV r := by
  simp only [State.readV, State.writeBlockRegs_v, getElem_writeRegsFrom, Nat.zero_le, true_and, Nat.sub_zero]

/-- Settles O15: an instruction that writes registers writes its destination, and VF after it where it has a flag, or
the block V0 to Vx; every other instruction has no register in its frame. -/
theorem onlyNamedRegistersAreWritten : Obligations.OnlyNamedRegistersAreWritten := by
  intro i s t r h unnamed
  have keeps (k : execFrame i s t → t.readV r = s.readV r) : t.readV r = s.readV r :=
    exec_keeps (field := fun s => s.readV r) (fun _ _ => rfl) h k
  cases i
  case ldVxKk | addVxKk | ldVxVy | orVxVy | andVxVy | xorVxVy | rndVxKk | ldVxDt =>
    cases h
    exact State.readV_writeV_other _ _ (ne_of_beq_false unnamed)
  case addVxVy | subVxVy | shrVxVy | subnVxVy | shlVxVy =>
    cases h
    obtain ⟨notX, notF⟩ := Bool.or_eq_false_iff.mp unnamed
    rw [State.readV_advance, State.readV_writeResultFlag, if_neg (ne_of_beq_false notF),
      if_neg (ne_of_beq_false notX)]
  case drwVxVyN =>
    rcases State.orRaise_next h with ⟨f, _, rfl⟩ | ⟨bytes, _, rfl⟩
    · rfl
    · exact State.readV_writeV_other _ _ (ne_of_beq_false unnamed)
  case ldVxMem x =>
    rcases State.orRaise_next h with ⟨f, _, rfl⟩ | ⟨bytes, loaded, rfl⟩
    · rfl
    · have above : x.val < r.val := not_le.mp (of_decide_eq_false unnamed)
      have length : bytes.length = x.val + 1 := by
        rcases s.loadBytes_cases (s.indexAddr 0) (x.val + 1) with ⟨_, e⟩ | ⟨_, e⟩ <;> rw [e] at loaded <;> cases loaded
        exact Memory.length_readBytes ..
      rw [State.readV_advance, State.readV_writeBlockRegs, dif_neg (by omega)]
  all_goals exact keeps fun frame => State.readV_congr (congrArg State.v frame :) r

/-! ### Memory, stack and I -/

/-- Settles O16: memory is in the frame of the two stores alone. -/
theorem onlyTwoInstructionsStore : Obligations.OnlyTwoInstructionsStore := by
  intro i s t h notB notM
  have mem : t.mem = s.mem := exec_keeps (fun _ _ => rfl) h fun frame => execFrame_mem frame notB notM
  exact ⟨mem, State.byteAt_congr mem⟩

/-- Settles O20: the stack is in the frame of 2nnn and SP in those of 2nnn and 00EE alone. -/
theorem onlyCallAndReturnTouchTheStack : Obligations.OnlyCallAndReturnTouchTheStack := by
  intro i s t h notCall notRet
  constructor
  · exact exec_keeps (fun _ _ => rfl) h fun frame => execFrame_sp frame notCall notRet
  · exact exec_keeps (fun _ _ => rfl) h fun frame => execFrame_stack frame notCall

/-- Settles O21: I is in the frame of Annn, Fx1E and Fx29 alone. -/
theorem onlyThreeInstructionsWriteI : Obligations.OnlyThreeInstructionsWriteI := by
  intro i s t h notLoad notAdd notGlyph
  exact exec_keeps (fun _ _ => rfl) h fun frame => execFrame_i frame notLoad notAdd notGlyph

/-! ### The framebuffer and the key latch -/

/-- An action other than Reset keeps a field that the latch and the two loads do not touch, and that the three other
actions with an effect keep. -/
theorem act_keeps {α : Type} {field : State → α} {a : HostAction} {s t : State} (h : act a s = .next t)
    (notReset : a ≠ .reset) (fault : ∀ f, field { s with fault := some f } = field s)
    (load : ∀ m p, field { s with mem := m, phase := p } = field s)
    (setKeys : ∀ ks, a = .setKeys ks → field { s with keys := ks } = field s)
    (keyResolve : ∀ k : Fin 16, field { s.writeV s.keyReg (BitVec.ofNat 8 k.val) with waiting := false } = field s)
    (cycle : a = .cycle → step s = .next t → field t = field s) : field t = field s := by
  rcases act_cases h with ⟨rfl, _⟩ | ⟨font, _, _, _, rfl⟩ | ⟨image, _, _, _, ⟨_, rfl⟩ | ⟨_, rfl⟩⟩ | ⟨ha, hstep⟩ |
    ⟨ks, ha, _, rfl⟩ | ⟨k, _, _, _, _, rfl⟩ | ⟨_, rfl⟩
  · exact absurd rfl notReset
  · exact load _ _
  · exact load _ _
  · exact fault _
  · exact cycle ha hstep
  · exact setKeys ks ha
  · exact keyResolve k
  · rfl

/-- Settles O17: no action but Reset writes the framebuffer, and it is in the frame of 00E0 and Dxyn alone. -/
theorem onlyClearAndDrawChangeTheFramebuffer : Obligations.OnlyClearAndDrawChangeTheFramebuffer := by
  intro a s t h notReset notDrawn row col
  have fb : t.fb = s.fb := by
    refine act_keeps h notReset (fun _ => rfl) (fun _ _ => rfl) (fun _ _ => rfl) (fun _ => rfl) fun ha hstep => ?_
    obtain ⟨notCls, notDrw⟩ := notDrawn ha
    refine step_keeps (fun _ _ => rfl) hstep (fun _ => rfl) fun i u hi frame => execFrame_fb frame ?_ ?_
    · rintro rfl
      exact notCls hi
    · rintro x y n rfl
      exact notDrw x y n hi
  rw [State.pixel, State.pixel, fb]

/-- Settles O18: no action but SetKeys and Reset writes the latch, and it is in the frame of no instruction. -/
theorem onlySetKeysWritesTheLatch : Obligations.OnlySetKeysWritesTheLatch := by
  intro a s t h notReset notSetKeys
  refine act_keeps h notReset (fun _ => rfl) (fun _ _ => rfl) (fun ks ha => absurd ha (notSetKeys ks)) (fun _ => rfl) ?_
  exact fun _ hstep => step_keeps (fun _ _ => rfl) hstep (fun _ => rfl) fun _ _ _ => execFrame_keys

/-! ### The wait flag and keyboard_register -/

/-- All a step can do to the wait flag and keyboard_register (R33, R187). -/
theorem step_waiting {s t : State} (h : step s = .next t) :
    (t.waiting = s.waiting ∧ t.keyReg = s.keyReg) ∨
    ∃ x, s.fetchInstr = .ok (.ldVxK x) ∧ t.waiting = true ∧ t.keyReg = x := by
  rcases step_cases h with ⟨f, rfl⟩ | ⟨i, u, hi, _, frame, _, _, rfl⟩
  · exact .inl ⟨rfl, rfl⟩
  · by_cases hx : ∃ x, i = .ldVxK x
    · obtain ⟨x, rfl⟩ := hx
      exact .inr ⟨x, hi, (congrArg State.waiting frame :), (congrArg State.keyReg frame :)⟩
    · have notWait : ∀ x, i ≠ .ldVxK x := fun x e => hx ⟨x, e⟩
      exact .inl ⟨(execFrame_waiting frame notWait :), (execFrame_keyReg frame notWait :)⟩

/-- All an action other than Reset can do to the wait flag and keyboard_register (R33, R206). -/
theorem act_waiting {a : HostAction} {s t : State} (h : act a s = .next t) (notReset : a ≠ .reset) :
    (t.waiting = s.waiting ∧ t.keyReg = s.keyReg) ∨
    (a = .cycle ∧ ∃ x, s.fetchInstr = .ok (.ldVxK x) ∧ t.waiting = true ∧ t.keyReg = x) ∨
    (∃ k, a = .keyResolve k) ∧ t.waiting = false ∧ t.keyReg = s.keyReg := by
  rcases act_cases h with ⟨rfl, _⟩ | ⟨font, _, _, _, rfl⟩ | ⟨image, _, _, _, ⟨_, rfl⟩ | ⟨_, rfl⟩⟩ | ⟨ha, hstep⟩ |
    ⟨ks, _, _, rfl⟩ | ⟨k, ha, _, _, _, rfl⟩ | ⟨_, rfl⟩
  · exact absurd rfl notReset
  · exact .inl ⟨rfl, rfl⟩
  · exact .inl ⟨rfl, rfl⟩
  · exact .inl ⟨rfl, rfl⟩
  · exact (step_waiting hstep).imp_right fun set => .inl ⟨ha, set⟩
  · exact .inl ⟨rfl, rfl⟩
  · exact .inr (.inr ⟨⟨k, ha⟩, rfl, rfl⟩)
  · exact .inl ⟨rfl, rfl⟩

/-- Settles O19: an action keeps both, or is a cycle that executes Fx0A, or is a KeyResolve. -/
theorem waitFlagHasOneSetterAndOneClearer : Obligations.WaitFlagHasOneSetterAndOneClearer := by
  intro a s t h notReset
  rcases act_waiting h notReset with ⟨flag, reg⟩ | ⟨ha, x, hx, flag, rfl⟩ | ⟨hk, flag, reg⟩
  · rw [flag, reg]
    refine ⟨fun off on => ?_, fun on off => ?_, fun moved => absurd rfl moved⟩
    · exact absurd (off.symm.trans on) Bool.false_ne_true
    · exact absurd (off.symm.trans on) Bool.false_ne_true
  · exact ⟨fun _ _ => ⟨ha, _, hx, rfl⟩, fun _ off => absurd (off.symm.trans flag) Bool.false_ne_true,
      fun _ => ⟨ha, hx⟩⟩
  · exact ⟨fun _ on => absurd (flag.symm.trans on) Bool.false_ne_true, fun _ _ => hk, fun moved => absurd reg moved⟩

/-! ### The phase and the fault latch -/

theorem step_phase {s t : State} (h : step s = .next t) : t.phase = s.phase :=
  step_keeps (fun _ _ => rfl) h (fun _ => rfl) fun _ _ _ => execFrame_phase

/-- Settles O22: Initialize and LoadProgram move the phase from the stage they ask for, a step keeps it, and with a
fault latched no action but the reads and Reset is admitted. -/
theorem phaseAndLatchMoveAsTheLifecycleSays : Obligations.PhaseAndLatchMoveAsTheLifecycleSays := by
  intro a s t h notReset
  rcases act_cases h with ⟨rfl, _⟩ | ⟨font, ha, good, hp, rfl⟩ | ⟨image, ha, good, hp, ⟨_, rfl⟩ | ⟨_, rfl⟩⟩ |
    ⟨_, hstep⟩ | ⟨ks, _, good, rfl⟩ | ⟨k, _, good, _, _, rfl⟩ | ⟨_, rfl⟩
  · exact absurd rfl notReset
  · exact ⟨.inl ⟨hp, rfl, font, ha⟩, fun faulted => absurd good faulted⟩
  · exact ⟨.inr (.inl ⟨hp, rfl, image, ha⟩), fun faulted => absurd good faulted⟩
  · exact ⟨.inr (.inr rfl), fun faulted => absurd good faulted⟩
  · obtain ⟨_, good, _⟩ := step_next hstep
    exact ⟨.inr (.inr (step_phase hstep)), fun faulted => absurd good faulted⟩
  · exact ⟨.inr (.inr rfl), fun faulted => absurd good faulted⟩
  · exact ⟨.inr (.inr rfl), fun faulted => absurd good faulted⟩
  · exact ⟨.inr (.inr rfl), fun _ => rfl⟩

end Sys2Proof.Machine
end

section
/-! PROOFS of the invariants: the canonical form of memory (20_memory.md R50, R52) and the bounds of addresses (R64). -/

namespace Sys2Proof.Machine

/-! ### The canonical form of memory -/

/-- Settles O23: only the two stores have memory in their frame, and a checked store keeps the canonical form. -/
theorem stepKeepsMemoryCanonical : Obligations.StepKeepsMemoryCanonical := by
  intro s t canonical h
  rcases step_cases h with ⟨f, rfl⟩ | ⟨i, u, _, hu, frame, _, good, rfl⟩
  · exact canonical
  · show Memory.wf u.mem = true
    have store {r : Except Fault State} (hs : ∀ v, r = .ok v → Memory.wf v.mem = true)
        (e : s.orRaise r State.advance = .next u) : Memory.wf u.mem = true := by
      rcases State.orRaise_next e with ⟨f, _, rfl⟩ | ⟨v, hv, rfl⟩
      · exact canonical
      · exact hs v hv
    cases i
    case ldBVx => exact store (fun _ => State.wf_storeBytes canonical) hu
    case ldMemVx => exact store (fun _ => State.wf_storeBytes canonical) hu
    all_goals
      rw [execFrame_mem frame nofun nofun]
      exact canonical

/-! ### The bounds of addresses -/

/-- Settles O25: memory is empty, PC is 0x200 and no return address is live. -/
theorem resetMeetsTheInvariants : Obligations.ResetMeetsTheInvariants :=
  ⟨State.wf_reset, by decide, fun _ live => absurd live (Nat.not_lt_zero _)⟩

theorem State.toNat_pc_add {s : State} (h : s.pc.toNat ≤ 0xFFE) {w : Word} (hw : w.toNat ≤ 4) :
    (s.pc + w).toNat = s.pc.toNat + w.toNat :=
  BitVec.toNat_add_of_lt (by omega)

/-- Where PC can go without a control transfer: nowhere, on a fault, or on by 2 or 4 (R104, R105). -/
theorem exec_pc {i : Instr} {s t : State} (direct : setsPcDirectly i = false) (h : exec i s = .next t) :
    t.pc = s.pc ∨ t.pc = s.pc + 2 ∨ t.pc = s.pc + 4 := by
  cases skip : isSkip i with
  | false =>
    rcases exec_cases h with ⟨f, rfl⟩ | frame
    · exact .inl rfl
    · exact .inr (.inl (execFrame_pc frame direct skip))
  | true =>
    rcases exec_skip skip h with ⟨f, rfl⟩ | ⟨c, rfl⟩
    · exact .inl rfl
    · cases c
      · exact .inr (.inl rfl)
      · exact .inr (.inr rfl)

/-- Without a control transfer an instruction at a PC that can be fetched from keeps the bounds. -/
theorem exec_keeps_addressesBounded_of_not_direct {i : Instr} {s t : State} (bounded : s.addressesBounded)
    (hpc : s.pc.toNat ≤ 0xFFE) (direct : setsPcDirectly i = false) (h : exec i s = .next t) : t.addressesBounded := by
  have notCall : ∀ nnn, i ≠ .call nnn := by rintro nnn rfl; cases direct
  have notRet : i ≠ .ret := by rintro rfl; cases direct
  have two : (s.pc + 2).toNat = s.pc.toNat + 2 := State.toNat_pc_add hpc (by decide)
  have four : (s.pc + 4).toNat = s.pc.toNat + 4 := State.toNat_pc_add hpc (by decide)
  obtain ⟨sp, stack⟩ := onlyCallAndReturnTouchTheStack i s t h notCall notRet
  refine ⟨?_, ?_⟩
  · rcases exec_pc direct h with e | e | e <;> rw [e] <;> omega
  · rw [sp, stack]
    exact bounded.2

/-- A push of a return address at most 0x1000 keeps the live return addresses below it. -/
theorem State.push_bounded {s t : State} {w : Word}
    (live : ∀ k : Fin 16, k.val < s.sp.val → s.stack[k.val].toNat ≤ 0x1000) (hw : w.toNat ≤ 0x1000) (h : s.push w = .ok t) :
    ∀ k : Fin 16, k.val < t.sp.val → t.stack[k.val].toNat ≤ 0x1000 := by
  rcases s.push_cases w with ⟨hsp, e⟩ | ⟨_, e⟩ <;> rw [e] at h <;> cases h
  intro k hk
  simp only at hk ⊢
  rw [Vector.getElem_set]
  split
  · exact hw
  · exact live k (by omega)

/-- A pop answers a live return address, and leaves those below it. -/
theorem State.pop_bounded {s : State} {p : Word × State}
    (live : ∀ k : Fin 16, k.val < s.sp.val → s.stack[k.val].toNat ≤ 0x1000) (h : s.pop = .ok p) :
    p.1.toNat ≤ 0x1000 ∧ ∀ k : Fin 16, k.val < p.2.sp.val → p.2.stack[k.val].toNat ≤ 0x1000 := by
  have := s.sp.isLt
  rcases s.pop_cases with ⟨hsp, e⟩ | ⟨_, e⟩ <;> rw [e] at h <;> cases h
  exact ⟨live ⟨s.sp.val - 1, by omega⟩ (by simp only; omega), fun k hk => live k (by simp only at hk; omega)⟩

/-- An instruction at a PC that can be fetched from keeps the bounds. -/
theorem exec_keeps_addressesBounded {i : Instr} {s t : State} (bounded : s.addressesBounded) (hpc : s.pc.toNat ≤ 0xFFE)
    (h : exec i s = .next t) : t.addressesBounded := by
  cases i
  case ret =>
    rcases State.orRaise_next h with ⟨f, _, rfl⟩ | ⟨p, popped, rfl⟩
    · exact bounded
    · obtain ⟨target, live⟩ := State.pop_bounded bounded.2 popped
      exact ⟨target.trans (by decide), live⟩
  case call nnn =>
    rcases State.orRaise_next h with ⟨f, _, rfl⟩ | ⟨u, pushed, rfl⟩
    · exact bounded
    · have literal := nnn.isLt
      have two : (s.pc + 2).toNat = s.pc.toNat + 2 := State.toNat_pc_add hpc (by decide)
      have live := State.push_bounded bounded.2 (by omega) pushed
      refine ⟨?_, live⟩
      rw [State.jumpTo_pc, toNat_wordOfLiteral]
      omega
  case jp nnn =>
    cases h
    have literal := nnn.isLt
    refine ⟨?_, bounded.2⟩
    rw [State.jumpTo_pc, toNat_wordOfLiteral]
    omega
  case jpV0Nnn nnn =>
    cases h
    have literal := nnn.isLt
    have offset := (s.readV 0).isLt
    refine ⟨?_, bounded.2⟩
    rw [State.jumpTo_pc, toNat_wordOfLiteral_add_wordOfByte]
    omega
  all_goals exact exec_keeps_addressesBounded_of_not_direct bounded hpc rfl h

/-- Settles O24: an instruction is fetched at a PC of at most 0xFFE, from which no instruction leaves the bounds, and
neither the tick nor the latch touches PC or the stack. -/
theorem stepKeepsAddressesBounded : Obligations.StepKeepsAddressesBounded := by
  intro s t bounded h
  rcases step_cases h with ⟨f, rfl⟩ | ⟨i, u, hi, hu, _, _, _, rfl⟩
  · exact bounded
  · have kept : u.addressesBounded := exec_keeps_addressesBounded bounded (State.pc_le_of_fetchInstr hi) hu
    exact kept

/-! ### Host actions -/

/-- A list of actions that answers a state begins with an action that does, and goes on from that state. -/
theorem actAll_cons_next {a : HostAction} {rest : List HostAction} {s t : State} (h : actAll (a :: rest) s = .next t) :
    ∃ u, act a s = .next u ∧ actAll rest u = .next t := by
  rw [actAll] at h
  split at h
  · next u hu => exact ⟨u, hu, h⟩
  · cases h
  · cases h

/-- What every action keeps, every list of actions keeps. -/
theorem actAll_keeps {P : State → Prop} (hP : ∀ a s t, P s → act a s = .next t → P t) (actions : List HostAction)
    (s t : State) (hs : P s) (h : actAll actions s = .next t) : P t := by
  induction actions generalizing s with
  | nil => cases h; exact hs
  | cons a rest ih =>
    obtain ⟨u, hu, hrest⟩ := actAll_cons_next h
    exact ih u (hP a s u hs hu) hrest

theorem act_keeps_memoryCanonical (a : HostAction) (s t : State) (canonical : s.memoryCanonical)
    (h : act a s = .next t) : t.memoryCanonical := by
  rcases act_cases h with ⟨_, rfl⟩ | ⟨font, _, _, _, rfl⟩ | ⟨image, _, _, _, ⟨fits, rfl⟩ | ⟨_, rfl⟩⟩ | ⟨_, hstep⟩ |
    ⟨ks, _, _, rfl⟩ | ⟨k, _, _, _, _, rfl⟩ | ⟨_, rfl⟩
  · exact State.wf_reset
  · exact Memory.wf_writeBytes canonical _ _ (by rw [Vector.length_toList]; decide)
  · exact Memory.wf_writeBytes canonical _ _ (Nat.add_le_add_left fits _)
  · exact canonical
  · exact stepKeepsMemoryCanonical s t canonical hstep
  · exact canonical
  · exact canonical
  · exact canonical

theorem act_keeps_addressesBounded (a : HostAction) (s t : State) (bounded : s.addressesBounded)
    (h : act a s = .next t) : t.addressesBounded := by
  rcases act_cases h with ⟨_, rfl⟩ | ⟨font, _, _, _, rfl⟩ | ⟨image, _, _, _, ⟨_, rfl⟩ | ⟨_, rfl⟩⟩ | ⟨_, hstep⟩ |
    ⟨ks, _, _, rfl⟩ | ⟨k, _, _, _, _, rfl⟩ | ⟨_, rfl⟩
  · exact resetMeetsTheInvariants.2
  · exact bounded
  · exact bounded
  · exact bounded
  · exact stepKeepsAddressesBounded s t bounded hstep
  · exact bounded
  · exact bounded
  · exact bounded

/-- Settles O26: each action keeps each invariant, so a list of actions does. -/
theorem hostActionsKeepTheInvariants : Obligations.HostActionsKeepTheInvariants := by
  intro actions s t canonical bounded h
  exact ⟨actAll_keeps act_keeps_memoryCanonical actions s t canonical h,
    actAll_keeps act_keeps_addressesBounded actions s t bounded h⟩

/-! ### Equality of canonical memories -/

/-- An address below every entry of a memory reads as unlisted. -/
theorem Memory.read_of_lt {m : List Host.Cell} {a : Nat} (h : ∀ c ∈ m, a < c.1) :
    Memory.read m a = Config.unlistedByte := by
  induction m with
  | nil => rfl
  | cons c rest ih =>
    rw [Memory.read, if_neg (Nat.ne_of_gt (h c (List.mem_cons_self ..)))]
    exact ih fun d hd => h d (List.mem_cons_of_mem _ hd)

theorem Memory.read_head (c : Host.Cell) (rest : List Host.Cell) : Memory.read (c :: rest) c.1 = c.2 := if_pos rfl

/-- The lowest listed address of a canonical memory is the lowest that does not read as unlisted, so a memory that
reads alike lists no higher address first. -/
theorem Memory.head_le {c c' : Host.Cell} {rest rest' : List Host.Cell} (h : Memory.wf (c :: rest) = true)
    (h' : Memory.wf (c' :: rest') = true) (e : Memory.read (c :: rest) c.1 = Memory.read (c' :: rest') c.1) :
    c'.1 ≤ c.1 := by
  by_contra lt
  obtain ⟨-, listed, -, -⟩ := (Memory.wf_cons c rest).mp h
  obtain ⟨-, -, above, -⟩ := (Memory.wf_cons c' rest').mp h'
  refine listed ?_
  rw [← Memory.read_head c rest, e]
  refine Memory.read_of_lt fun d hd => ?_
  rcases List.mem_cons.mp hd with rfl | hd
  · omega
  · exact (not_le.mp lt).trans (above d hd)

/-- The tails of canonical memories with one head read alike when the memories do. -/
theorem Memory.read_tail_eq {c : Host.Cell} {rest rest' : List Host.Cell} (h : Memory.wf (c :: rest) = true)
    (h' : Memory.wf (c :: rest') = true) (e : ∀ a, Memory.read (c :: rest) a = Memory.read (c :: rest') a) (a : Nat) :
    Memory.read rest a = Memory.read rest' a := by
  obtain ⟨-, -, above, -⟩ := (Memory.wf_cons c rest).mp h
  obtain ⟨-, -, above', -⟩ := (Memory.wf_cons c rest').mp h'
  by_cases ha : c.1 = a
  · subst ha
    rw [Memory.read_of_lt above, Memory.read_of_lt above']
  · simpa only [Memory.read, if_neg ha] using e a

/-- An empty memory reads unlike a canonical memory with an entry. -/
theorem Memory.read_ne_of_cons {c : Host.Cell} {rest : List Host.Cell} (h : Memory.wf (c :: rest) = true) :
    Memory.read (c :: rest) c.1 ≠ Memory.read [] c.1 := by
  rw [Memory.read_head]
  exact ((Memory.wf_cons c rest).mp h).2.1

/-- Settles O27: the first entries agree, since each is at the lowest address that does not read as unlisted, and then
the tails read alike. -/
theorem equalReadsMeanEqualMemories : Obligations.EqualReadsMeanEqualMemories := by
  intro m
  induction m with
  | nil =>
    intro m' _ h' e
    cases m' with
    | nil => rfl
    | cons c' rest' => exact absurd (e c'.1).symm (Memory.read_ne_of_cons h')
  | cons c rest ih =>
    intro m' h h' e
    cases m' with
    | nil => exact absurd (e c.1) (Memory.read_ne_of_cons h)
    | cons c' rest' =>
      have address : c.1 = c'.1 := le_antisymm (Memory.head_le h' h (e c'.1).symm) (Memory.head_le h h' (e c.1))
      have byte : c.2 = c'.2 := by
        rw [← Memory.read_head c rest, e c.1, address, Memory.read_head]
      obtain rfl : c = c' := Prod.ext address byte
      obtain ⟨-, -, -, wf⟩ := (Memory.wf_cons c rest).mp h
      obtain ⟨-, -, -, wf'⟩ := (Memory.wf_cons c rest').mp h'
      rw [ih rest' wf wf' (Memory.read_tail_eq h h' e)]

end Sys2Proof.Machine
end

section
/-! PROOFS of the statements about what cannot be seen (10_state.md R39): the sound timer, the wait flag with
keyboard_register, and the picture outside a draw. One law says that the execute stage commutes with a change of these
fields; each statement is a case of it, beside the instruction that writes its field. -/

namespace Sys2Proof.Machine

/-! ### A change of the unseen fields -/

/-- A change of the four fields that decide nothing in a cycle: ST, the wait flag, keyboard_register and, outside a
draw, the picture (R39). -/
structure UnseenChange where
  st : Byte → Byte
  waiting : Bool → Bool
  keyReg : Reg → Reg
  fb : Framebuffer → Framebuffer

/-- The state with its unseen fields changed. -/
def State.change (s : State) (u : UnseenChange) : State :=
  { s with st := u.st s.st, waiting := u.waiting s.waiting, keyReg := u.keyReg s.keyReg, fb := u.fb s.fb }

theorem State.push_change {s t : State} {w : Word} (u : UnseenChange) (h : s.push w = .ok t) :
    (s.change u).push w = .ok (t.change u) := by
  rcases s.push_cases w with ⟨hsp, e⟩ | ⟨_, e⟩ <;> rw [e] at h <;> cases h
  exact dif_pos hsp

theorem State.pop_change {s : State} {p : Word × State} (u : UnseenChange) (h : s.pop = .ok p) :
    (s.change u).pop = .ok (p.1, p.2.change u) := by
  rcases s.pop_cases with ⟨hsp, e⟩ | ⟨_, e⟩ <;> rw [e] at h <;> cases h
  exact dif_pos hsp

theorem State.storeBytes_change {s t : State} {base : Nat} {bytes : List Byte} (u : UnseenChange)
    (h : s.storeBytes base bytes = .ok t) : (s.change u).storeBytes base bytes = .ok (t.change u) := by
  unfold State.storeBytes at h ⊢
  cases e : rangeFault base bytes.length with
  | some f => rw [e] at h; cases h
  | none => rw [e] at h; cases h; rfl

theorem State.storeBytes_change_error {s : State} {base : Nat} {bytes : List Byte} (u : UnseenChange) {f : Fault}
    (h : s.storeBytes base bytes = .error f) : (s.change u).storeBytes base bytes = .error f := by
  unfold State.storeBytes at h ⊢
  cases e : rangeFault base bytes.length with
  | some g => rw [e] at h; cases h; rfl
  | none => rw [e] at h; cases h

/-- A checked operation commutes with a change when its check and what follows it do. -/
theorem State.orRaise_change {α : Type} {s t : State} {r r' : Except Fault α} {k k' : α → State} (u : UnseenChange)
    (h : s.orRaise r k = .next t) (error : ∀ f, r = .error f → r' = .error f)
    (ok : ∀ a, r = .ok a → ∃ a', r' = .ok a' ∧ k' a' = (k a).change u) :
    (s.change u).orRaise r' k' = .next (t.change u) := by
  rcases State.orRaise_next h with ⟨f, hr, rfl⟩ | ⟨a, hr, rfl⟩
  · rw [error f hr]; rfl
  · obtain ⟨a', hr', hk⟩ := ok a hr
    rw [hr', State.orRaise_ok, hk]

/-- The execute stage commutes with a change of the unseen fields, where the change spares the field that the
instruction writes, and the picture if it is a draw. -/
theorem exec_change {i : Instr} {s t : State} (u : UnseenChange) (h : exec i s = .next t)
    (st : ∀ x, i = .ldStVx x → u.st = id) (wait : ∀ x, i = .ldVxK x → u.waiting = id ∧ u.keyReg = id)
    (cls : i = .cls → u.fb = id) (draw : ∀ x y n, i = .drwVxVyN x y n → u.fb = id) :
    exec i (s.change u) = .next (t.change u) := by
  cases i
  case cls => cases h; simp only [exec_cls, State.change, cls rfl]; rfl
  case ldStVx x => cases h; simp only [exec_ldStVx, State.change, st x rfl]; rfl
  case ldVxK x =>
    cases h
    obtain ⟨waiting, keyReg⟩ := wait x rfl
    simp only [exec_ldVxK, State.change, waiting, keyReg]; rfl
  case drwVxVyN x y n =>
    refine State.orRaise_change u h (fun _ e => e) fun bytes e => ⟨bytes, e, ?_⟩
    simp only [State.change, draw x y n rfl]; rfl
  case ret =>
    refine State.orRaise_change u h (fun f e => ?_) fun p e => ⟨_, State.pop_change u e, rfl⟩
    exact (State.pop_error_iff _ f).mpr ((s.pop_error_iff f).mp e)
  case call =>
    refine State.orRaise_change u h (fun f e => ?_) fun p e => ⟨_, State.push_change u e, rfl⟩
    exact (State.push_error_iff _ _ f).mpr ((s.push_error_iff _ f).mp e)
  case ldBVx =>
    exact State.orRaise_change u h (fun _ => State.storeBytes_change_error u) fun _ e =>
      ⟨_, State.storeBytes_change u e, rfl⟩
  case ldMemVx =>
    exact State.orRaise_change u h (fun _ => State.storeBytes_change_error u) fun _ e =>
      ⟨_, State.storeBytes_change u e, rfl⟩
  case ldVxMem => exact State.orRaise_change u h (fun _ e => e) fun bytes e => ⟨bytes, e, rfl⟩
  case skpVx => exact State.orRaise_change u h (fun _ e => e) fun k e => ⟨k, e, rfl⟩
  case sknpVx => exact State.orRaise_change u h (fun _ e => e) fun k e => ⟨k, e, rfl⟩
  all_goals cases h; rfl

/-! ### From the execute stage to the step -/

/-- Two outcomes of one kind: next states that are related, or the same fault, or the same refusal. -/
def OutcomesAlike (R : State → State → Prop) (o o' : StepOutcome) : Prop :=
  (∀ t, o = .next t → ∃ t', o' = .next t' ∧ R t t') ∧ (∀ f, o = .fault f → o' = .fault f) ∧
    ∀ r, o = .refused r → o' = .refused r

theorem step_of_cycleBar {s : State} {o : StepOutcome} (h : s.cycleBar = some o) : step s = o := by
  simp only [step, cycle, h]

/-- Two states that are admitted alike and fetch alike step alike, when the execute stage, the tick and the latch keep
the relation. -/
theorem step_alike {R : State → State → Prop} {s s' : State} (related : R s s') (bar : s'.cycleBar = s.cycleBar)
    (fetch : s'.fetchInstr = s.fetchInstr) (latch : ∀ t t', R t t' → t'.fault = t.fault)
    (fault : ∀ t t' f, R t t' → R { t with fault := some f } { t' with fault := some f })
    (tick : ∀ t t', R t t' → R t.tick t'.tick)
    (execute : ∀ i t, exec i s = .next t → ∃ t', exec i s' = .next t' ∧ R t t') :
    OutcomesAlike R (step s) (step s') := by
  cases hb : s.cycleBar with
  | some o =>
    rw [step_of_cycleBar hb, step_of_cycleBar (bar.trans hb)]
    refine ⟨fun t e => ?_, fun _ => id, fun _ => id⟩
    obtain ⟨hp, hf, _⟩ := step_next ((step_of_cycleBar hb).trans e)
    rw [s.cycleBar_none_iff.mpr ⟨hp, hf⟩] at hb
    cases hb
  | none =>
    have admitted : s.admitted := s.cycleBar_none_iff.mp hb
    have admitted' : s'.admitted := s'.cycleBar_none_iff.mp (bar.trans hb)
    obtain ⟨t, ht⟩ := admittedStepsAlwaysAnswerAState.2 s admitted
    rw [ht]
    refine ⟨?_, nofun, nofun⟩
    rintro _ ⟨⟩
    obtain ⟨_, _, ⟨f, hi, rfl⟩ | ⟨i, v, hi, hv, rfl⟩⟩ := step_next ht
    · exact ⟨_, step_of_fetch_error admitted' (fetch.trans hi), fault s s' f related⟩
    · obtain ⟨v', hv', hR⟩ := execute i v hv
      refine ⟨_, (step_of_fetchInstr admitted' (fetch.trans hi)).trans (congrArg endCycle hv'), ?_⟩
      rw [latch v v' hR]
      split
      · exact tick v v' hR
      · exact hR

/-! ### The sound timer -/

/-- The execute stage does not see ST (R27). -/
theorem exec_change_st {i : Instr} {s t : State} (w : Byte) (h : exec i s = .next t) :
    ∃ w', exec i { s with st := w } = .next { t with st := w' } := by
  by_cases writes : ∃ x, i = .ldStVx x
  · obtain ⟨x, rfl⟩ := writes
    cases h
    exact ⟨s.readV x, rfl⟩
  · exact ⟨w, exec_change ⟨fun _ => w, id, id, id⟩ h (fun x e => absurd ⟨x, e⟩ writes) (fun _ _ => ⟨rfl, rfl⟩)
      (fun _ => rfl) fun _ _ _ _ => rfl⟩

/-- Settles O28: states that differ in ST alone are admitted and fetch alike, and execute, tick and latch alike. -/
theorem soundTimerIsNeverObserved : Obligations.SoundTimerIsNeverObserved := by
  intro s w
  have alike : OutcomesAlike (fun t t' => ∃ w', t' = { t with st := w' }) (step s) (step { s with st := w }) := by
    refine step_alike ⟨w, rfl⟩ rfl rfl ?latch ?fault ?tick fun i t h => ?execute
    case latch => rintro t _ ⟨w', rfl⟩; rfl
    case fault => rintro t _ f ⟨w', rfl⟩; exact ⟨w', rfl⟩
    case tick => rintro t _ ⟨w', rfl⟩; exact ⟨tickTimer w', rfl⟩
    case execute =>
      obtain ⟨w', hw'⟩ := exec_change_st w h
      exact ⟨_, hw', w', rfl⟩
  obtain ⟨next, fault, refused⟩ := alike
  refine ⟨fun t h => ?_, fault, refused⟩
  obtain ⟨_, h', w', rfl⟩ := next t h
  exact ⟨w', h'⟩

/-! ### The wait flag and keyboard_register -/

/-- The execute stage does not see the wait flag or keyboard_register (R109). -/
theorem exec_change_wait {i : Instr} {s t : State} (b : Bool) (r : Reg) (h : exec i s = .next t) :
    ∃ b' r', exec i { s with waiting := b, keyReg := r } = .next { t with waiting := b', keyReg := r' } := by
  by_cases writes : ∃ x, i = .ldVxK x
  · obtain ⟨x, rfl⟩ := writes
    cases h
    exact ⟨true, x, rfl⟩
  · exact ⟨b, r, exec_change ⟨id, fun _ => b, fun _ => r, id⟩ h (fun _ _ => rfl) (fun x e => absurd ⟨x, e⟩ writes)
      (fun _ => rfl) fun _ _ _ _ => rfl⟩

/-- Settles O29: states that differ in the wait flag and keyboard_register alone are admitted and fetch alike, and
execute, tick and latch alike. -/
theorem waitFlagDoesNotGateACycle : Obligations.WaitFlagDoesNotGateACycle := by
  intro s b r
  have alike : OutcomesAlike (fun t t' => ∃ b' r', t' = { t with waiting := b', keyReg := r' }) (step s)
      (step { s with waiting := b, keyReg := r }) := by
    refine step_alike ⟨b, r, rfl⟩ rfl rfl ?latch ?fault ?tick fun i t h => ?execute
    case latch => rintro t _ ⟨b', r', rfl⟩; rfl
    case fault => rintro t _ f ⟨b', r', rfl⟩; exact ⟨b', r', rfl⟩
    case tick => rintro t _ ⟨b', r', rfl⟩; exact ⟨b', r', rfl⟩
    case execute =>
      obtain ⟨b', r', h'⟩ := exec_change_wait b r h
      exact ⟨_, h', b', r', rfl⟩
  obtain ⟨next, fault, refused⟩ := alike
  refine ⟨fun t h => ?_, fault, refused⟩
  obtain ⟨_, h', b', r', rfl⟩ := next t h
  exact ⟨b', r', h'⟩

/-! ### The picture -/

/-- Settles O30: 00E0 writes one picture whatever was there, and every other instruction but a draw commutes with a
change of the picture. -/
theorem framebufferIsSeenOnlyByADraw : Obligations.FramebufferIsSeenOnlyByADraw := by
  intro i s t picture notDraw h
  by_cases cls : i = .cls
  · subst cls
    cases h
    exact ⟨clearFramebuffer, rfl⟩
  · exact ⟨picture, exec_change ⟨id, id, id, fun _ => picture⟩ h (fun _ _ => rfl) (fun _ _ => ⟨rfl, rfl⟩)
      (fun e => absurd e cls) fun x y n e => absurd e (notDraw x y n)⟩

end Sys2Proof.Machine
end

section
/-! PROOFS of the statements about the stack and the skips: 2nnn and 00EE (41_flow.md R120, R122; 10_state.md R29, R30),
3xkk, 4xkk, 5xy0, 9xy0 (42_skip.md R130 to R133), Ex9E and ExA1 (46_keyboard_timers.md R185, R186). -/

namespace Sys2Proof.Machine

/-! ### Calls and returns -/

/-- What a call with a free cell leaves (R29, R122). -/
def State.afterCall (s : State) (nnn : Addr) (h : s.sp.val < 16) : State :=
  { s with
    stack := s.stack.set s.sp.val (s.pc + 2) h
    sp := ⟨s.sp.val + 1, Nat.succ_lt_succ h⟩
    pc := wordOfLiteral nnn }

theorem State.pred_sp_lt (s : State) (h : 0 < s.sp.val) : s.sp.val - 1 < 16 := by
  have := s.sp.isLt
  omega

/-- What a return with a live cell leaves (R30, R120). -/
def State.afterReturn (s : State) (h : 0 < s.sp.val) : State :=
  { s with sp := ⟨s.sp.val - 1, Nat.lt_succ_of_lt (s.pred_sp_lt h)⟩, pc := s.stack[s.sp.val - 1]'(s.pred_sp_lt h) }

theorem exec_call_of_lt {s : State} (nnn : Addr) (h : s.sp.val < 16) :
    exec (.call nnn) s = .next (s.afterCall nnn h) := by
  have pushed : s.push (s.pc + 2) = .ok _ := dif_pos h
  rw [exec_call, pushed, State.orRaise_ok]
  rfl

theorem exec_call_of_full {s : State} (nnn : Addr) (h : s.sp.val = 16) :
    exec (.call nnn) s = .next { s with fault := some .stackOverflow } := by
  rw [exec_call, (s.push_error_iff _ _).mpr ⟨rfl, h⟩, State.orRaise_error]

theorem exec_ret_of_pos {s : State} (h : 0 < s.sp.val) : exec .ret s = .next (s.afterReturn h) := by
  have popped : s.pop = .ok _ := dif_pos h
  rw [exec_ret, popped, State.orRaise_ok]
  rfl

theorem exec_ret_of_empty {s : State} (h : s.sp.val = 0) :
    exec .ret s = .next { s with fault := some .stackUnderflow } := by
  rw [exec_ret, (s.pop_error_iff _).mpr ⟨rfl, h⟩, State.orRaise_error]

/-- Settles O33: a push with a free cell writes that cell alone; without one it answers StackOverflow. -/
theorem callPushesOrOverflows : Obligations.CallPushesOrOverflows := by
  intro s nnn
  refine ⟨fun h => ⟨_, exec_call_of_lt nnn h, rfl, ?written, fun k hk => ?others, ?frame⟩, exec_call_of_full nnn⟩
  case written => exact Vector.getElem_set_self h
  case others => exact Vector.getElem_set_ne h k.isLt hk.symm
  case frame => rw [← wordOfLiteral_eq_ofNat]; rfl

/-- Settles O34: a pop with a live cell reads the top cell; without one it answers StackUnderflow. -/
theorem returnPopsOrUnderflows : Obligations.ReturnPopsOrUnderflows := by
  refine fun s => ⟨fun h => ⟨_, s.pred_sp_lt h, exec_ret_of_pos h, ?_, rfl, rfl⟩, exec_ret_of_empty⟩
  exact Nat.sub_add_cancel h

/-- Settles O35: the two calls write two neighbouring cells, which the two returns read from the top. -/
theorem returnsComeBackInReverseOrder : Obligations.ReturnsComeBackInReverseOrder := by
  intro s p q h
  have free : s.sp.val < 16 := by omega
  have free' : s.sp.val + 1 < 16 := by omega
  refine ⟨_, _, _, _, exec_call_of_lt p free, exec_call_of_lt q free', exec_ret_of_pos (Nat.succ_pos _),
    exec_ret_of_pos (Nat.succ_pos _), ?inner, ?outer, rfl⟩
  case inner => exact Vector.getElem_set_self free'
  case outer =>
    calc ((s.stack.set s.sp.val (s.pc + 2)).set (s.sp.val + 1) _)[s.sp.val]
        = (s.stack.set s.sp.val (s.pc + 2))[s.sp.val] := Vector.getElem_set_ne free' free (Nat.succ_ne_self _)
      _ = s.pc + 2 := Vector.getElem_set_self free

/-! ### Skips -/

/-- A skip advance moves PC and nothing else (R105). -/
theorem State.skipWhen_eq (s : State) {cond : Bool} {P : Prop} [Decidable P] (h : cond = true ↔ P) :
    s.skipWhen cond = { s with pc := if P then s.pc + 4 else s.pc + 2 } := by
  simp only [State.skipWhen, h]

theorem decodeNibbles_seVxVy (n1 n2 n3 : Nibble) : decodeNibbles 0x5 n1 n2 n3 =
    if n3 = 0x0 then some (.seVxVy (regOf n1) (regOf n2)) else none := rfl

theorem decodeNibbles_sneVxVy (n1 n2 n3 : Nibble) : decodeNibbles 0x9 n1 n2 n3 =
    if n3 = 0x0 then some (.sneVxVy (regOf n1) (regOf n2)) else none := rfl

/-- Settles O36: each skip is a skip advance on the comparison of its operands. -/
theorem registerSkipsTestEquality : Obligations.RegisterSkipsTestEquality := by
  intro s x y h l
  refine ⟨rfl, rfl, rfl, rfl, fun illegal => ⟨?_, ?_⟩, fun kk => ⟨?_, ?_, ?_, ?_⟩⟩
  · rw [decodeNibbles_seVxVy, if_neg illegal]
  · rw [decodeNibbles_sneVxVy, if_neg illegal]
  · rw [exec_seVxKk, State.skipWhen_eq s beq_iff_eq]
  · rw [exec_sneVxKk, State.skipWhen_eq s bne_iff_ne]
  · rw [exec_seVxVy, State.skipWhen_eq s beq_iff_eq]
  · rw [exec_sneVxVy, State.skipWhen_eq s bne_iff_ne]

theorem State.keyOperand_of_lt {s : State} {x : Reg} (h : (s.readV x).toNat < 16) :
    s.keyOperand x = .ok ⟨(s.readV x).toNat, h⟩ := dif_pos h

/-- Settles O37: below 16 the operand names a latch cell, on which each skip is a skip advance; above 15 the operand
answers KeyIndexOutOfRange. -/
theorem keySkipsTestTheLatch : Obligations.KeySkipsTestTheLatch := by
  intro s x
  constructor
  · intro h
    constructor
    · rw [exec_skpVx, State.keyOperand_of_lt h, State.orRaise_ok, State.skipWhen_eq s Iff.rfl, State.keyDown]
    · rw [exec_sknpVx, State.keyOperand_of_lt h, State.orRaise_ok,
        State.skipWhen_eq s (iff_of_eq (Bool.not_eq_true' _)), State.keyDown]
  · intro h
    have error : s.keyOperand x = .error _ := (s.keyOperand_error_iff x _).mpr ⟨rfl, h⟩
    constructor
    · rw [exec_skpVx, error, State.orRaise_error]
    · rw [exec_sknpVx, error, State.orRaise_error]

end Sys2Proof.Machine
end

section
/-! PROOFS of the statements about logic, arithmetic with a flag, shifts and random (43_alu.md): 8xy1 to 8xy7 and 8xyE
(R143 to R150, R152, R153), Cxkk (R151). -/

namespace Sys2Proof.Machine

/-! ### Logic -/

/-- Settles O39: each writes one register, with the bitwise operation of the two. -/
theorem logicActsBitByBitAndLeavesVF : Obligations.LogicActsBitByBitAndLeavesVF := by
  intro s x y
  refine ⟨⟨_, _, exec_orVxVy x y s, oneRegisterWritten_writeV_advance .., ?or⟩,
    ⟨_, _, exec_andVxVy x y s, oneRegisterWritten_writeV_advance .., ?and⟩,
    ⟨_, _, exec_xorVxVy x y s, oneRegisterWritten_writeV_advance .., ?xor⟩⟩
  case or => exact fun _ => BitVec.getLsbD_or
  case and => exact fun _ => BitVec.getLsbD_and
  case xor => exact fun _ => BitVec.getLsbD_xor

/-! ### A result and its flag -/

/-- A result and then its flag, followed by the advance of PC, is the whole effect of an instruction that sets VF
(R153). -/
theorem resultAndFlagWritten_advance (s : State) (x : Reg) (b : Byte) {flag : Bool} {P : Prop} (h : flag = true ↔ P) :
    ResultAndFlagWritten s (s.writeResultFlag x b flag).advance x b P := by
  have read (r : Reg) : (s.writeResultFlag x b flag).advance.readV r =
      if r = regF then flagByte flag else if r = x then b else s.readV r := State.readV_writeResultFlag s x r b flag
  refine ⟨fun set => ?_, fun unset => ?_, fun notF => ?_, fun r notX notF => ?_, fun _ => rfl, rfl⟩
  · rw [read, if_pos rfl, h.mpr set]; rfl
  · rw [read, if_pos rfl, Bool.eq_false_iff.mpr (unset ∘ h.mp)]; rfl
  · rw [read, if_neg notF, if_pos rfl]
  · rw [read, if_neg notF, if_neg notX]

theorem carryOut_iff (a b : Byte) : carryOut a b = true ↔ 255 < a.toNat + b.toNat := decide_eq_true_iff

theorem noBorrow_iff (a b : Byte) : noBorrow a b = true ↔ b.toNat ≤ a.toNat := by
  simp only [noBorrow, Bool.not_eq_true', decide_eq_false_iff_not, Nat.not_lt]

theorem droppedLow_iff : ∀ a : Byte, droppedLow a = true ↔ a.toNat % 2 = 1 := by decide

theorem droppedHigh_iff : ∀ a : Byte, droppedHigh a = true ↔ 128 ≤ a.toNat := by decide

/-- Subtraction of bytes is the difference of their values, with 256 borrowed where it would be negative (R147). -/
theorem byte_sub_eq_ofNat (a b : Byte) :
    a - b = BitVec.ofNat 8 (if b.toNat ≤ a.toNat then a.toNat - b.toNat else a.toNat + 256 - b.toNat) := by
  apply BitVec.eq_of_toNat_eq
  have := a.isLt
  have := b.isLt
  rw [BitVec.toNat_sub, BitVec.toNat_ofNat]
  split <;> omega

theorem byte_shiftRight_one (a : Byte) : a >>> 1 = BitVec.ofNat 8 (a.toNat / 2) := by
  apply BitVec.eq_of_toNat_eq
  have := a.isLt
  rw [BitVec.toNat_ushiftRight, BitVec.toNat_ofNat, Nat.shiftRight_eq_div_pow]
  omega

theorem byte_shiftLeft_one (a : Byte) : a <<< 1 = BitVec.ofNat 8 (2 * a.toNat % 256) := by
  apply BitVec.eq_of_toNat_eq
  rw [BitVec.toNat_shiftLeft, BitVec.toNat_ofNat, Nat.shiftLeft_eq]
  omega

/-- Settles O40: the sum of bytes, and then the carry of the exact sum. -/
theorem addSetsCarry : Obligations.AddSetsCarry := by
  intro s x y
  rw [← byte_add_eq_ofNat]
  exact ⟨_, exec_addVxVy x y s, resultAndFlagWritten_advance s x _ (carryOut_iff ..)⟩

/-- Settles O41: the difference of bytes, and then the flag that no borrow was needed. -/
theorem subtractionsClearVFOnBorrow : Obligations.SubtractionsClearVFOnBorrow := by
  intro s x y
  rw [← byte_sub_eq_ofNat, ← byte_sub_eq_ofNat]
  exact ⟨⟨_, exec_subVxVy x y s, resultAndFlagWritten_advance s x _ (noBorrow_iff ..)⟩,
    ⟨_, exec_subnVxVy x y s, resultAndFlagWritten_advance s x _ (noBorrow_iff ..)⟩⟩

/-- Settles O42: a shift by one is a division or a product by 2, and the bit dropped is the lowest or the highest. -/
theorem shiftsMoveOneBitAndKeepTheDroppedOne : Obligations.ShiftsMoveOneBitAndKeepTheDroppedOne := by
  intro s x y
  rw [← byte_shiftRight_one, ← byte_shiftLeft_one]
  exact ⟨⟨_, exec_shrVxVy x y s, resultAndFlagWritten_advance s x _ (droppedLow_iff _)⟩,
    ⟨_, exec_shlVxVy x y s, resultAndFlagWritten_advance s x _ (droppedHigh_iff _)⟩⟩

/-! ### Random -/

theorem byte_masked_outside (b mask : Byte) : (b &&& mask) &&& ~~~mask = 0 := by
  rw [BitVec.and_assoc, BitVec.and_not_self]
  exact BitVec.and_zero

/-- Settles O43: the byte taken is free, and its bits outside the mask are cleared whatever it is. -/
theorem randomIsMaskedAndTakesOneByte : Obligations.RandomIsMaskedAndTakesOneByte := by
  intro s x kk
  have written : (s.drawByte.2.writeV x (s.drawByte.1 &&& kk)).advance.readV x = Config.freeByte s.draws &&& kk :=
    State.readV_writeV_same ..
  refine ⟨_, exec_rndVxKk x kk s, written, ?masked, fun r hr => ?others, fun _ => rfl, rfl⟩
  case masked => rw [written, byte_masked_outside]
  case others => exact State.readV_writeV_other _ _ hr

end Sys2Proof.Machine
end

section
/-! PROOFS of the statements about the index register and memory (44_index_memory.md): Fx1E, Fx29 (R161, R162), Fx33,
Fx55, Fx65 (R163 to R165), and the fetch after a store (20_memory.md R57, R59). -/

namespace Sys2Proof.Machine

/-! ### The index register -/

theorem toNat_glyphAddress (b : Byte) : (glyphAddress b).toNat = 5 * b.toNat := by
  have := b.isLt
  have fits : 5 * b.toNat < 2 ^ 16 := by omega
  rw [glyphAddress, BitVec.toNat_ofNat]
  exact Nat.mod_eq_of_lt fits

/-- Settles O45: I takes a sum of words, or five times a byte, which fits in a word. -/
theorem indexSumAndGlyphAddress : Obligations.IndexSumAndGlyphAddress := by
  refine fun s x => ⟨⟨_, exec_addIVx x s, ?sum, State.writeI_advance_eq ..⟩,
    ⟨_, exec_ldFVx x s, toNat_glyphAddress _, State.writeI_advance_eq ..⟩⟩
  case sum => rw [State.advance_i, State.writeI_i, BitVec.toNat_add, toNat_wordOfByte]

/-! ### Stores -/

/-- The state after bytes are stored from `base` upward and PC goes on (R61, R104). -/
def State.afterStore (s : State) (base : Nat) (bytes : List Byte) : State :=
  { s with mem := Memory.writeBytes s.mem base bytes, pc := s.pc + 2 }

theorem bytesStored_afterStore (s : State) (base : Nat) (bytes : List Byte) :
    BytesStored s (s.afterStore base bytes) base bytes :=
  ⟨Memory.read_writeBytes_inside s.mem base bytes, Memory.read_writeBytes_outside s.mem base bytes, rfl⟩

theorem exec_ldBVx_of_le {s : State} (x : Reg) (h : s.i.toNat + 2 ≤ 0xFFF) :
    exec (.ldBVx x) s = .next (s.afterStore (s.indexAddr 0) (decimalDigits (s.readV x))) := by
  have in_range : s.indexAddr 0 + (decimalDigits (s.readV x)).length ≤ 0x1000 := Nat.succ_le_succ h
  rw [exec_ldBVx, State.storeBytes_ok in_range, State.orRaise_ok]
  rfl

theorem exec_ldBVx_of_lt {s : State} (x : Reg) (h : 0xFFF < s.i.toNat + 2) :
    exec (.ldBVx x) s = .next { s with fault := some (.memOutOfRange (max s.i.toNat 0x1000)) } := by
  have out_of_range : 0x1000 < s.indexAddr 0 + (decimalDigits (s.readV x)).length := Nat.succ_lt_succ h
  rw [exec_ldBVx, State.storeBytes_error (bytes := decimalDigits _) (Nat.succ_pos _) out_of_range, State.orRaise_error]
  rfl

theorem exec_ldMemVx_of_le {s : State} {x : Reg} (h : s.i.toNat + x.val ≤ 0xFFF) :
    exec (.ldMemVx x) s = .next (s.afterStore (s.indexAddr 0) (s.blockRegs x)) := by
  have in_range : s.indexAddr 0 + (s.blockRegs x).length ≤ 0x1000 := by
    rw [State.length_blockRegs, State.indexAddr]
    omega
  rw [exec_ldMemVx, State.storeBytes_ok in_range, State.orRaise_ok]
  rfl

theorem exec_ldMemVx_of_lt {s : State} {x : Reg} (h : 0xFFF < s.i.toNat + x.val) :
    exec (.ldMemVx x) s = .next { s with fault := some (.memOutOfRange (max s.i.toNat 0x1000)) } := by
  have length := s.length_blockRegs x
  have out_of_range : 0x1000 < s.indexAddr 0 + (s.blockRegs x).length := by
    rw [length, State.indexAddr]
    omega
  rw [exec_ldMemVx, State.storeBytes_error (by omega) out_of_range, State.orRaise_error]
  rfl

/-- Settles O46: the three bytes stored are the decimal digits; the range check covers I to I + 2. -/
theorem decimalDigitsAreStored : Obligations.DecimalDigitsAreStored := by
  intro s x
  refine ⟨fun h => ?_, exec_ldBVx_of_lt x⟩
  have byte := (s.readV x).isLt
  refine ⟨_, _, _, _, exec_ldBVx_of_le x h, bytesStored_afterStore s _ (decimalDigits _), ?_⟩
  simp only [BitVec.toNat_ofNat]
  omega

/-- A register of the block is read back from its address after Fx55 (R164). -/
theorem State.byteAt_afterStore_blockRegs (s : State) {x r : Reg} (h : r ≤ x) :
    (s.afterStore (s.indexAddr 0) (s.blockRegs x)).byteAt (s.indexAddr r.val) = s.readV r := by
  have inside : r.val < (s.blockRegs x).length := by
    rw [State.length_blockRegs]
    exact Nat.lt_succ_of_le h
  exact ((bytesStored_afterStore ..).1 r.val inside).trans (s.getElem_blockRegs x r.val inside)

/-- Settles O47: byte k of the block stored is V[k]; the range check covers I to I + x. -/
theorem blockOfRegistersIsStored : Obligations.BlockOfRegistersIsStored := by
  intro s x
  refine ⟨fun h => ⟨_, exec_ldMemVx_of_le h, fun r => s.byteAt_afterStore_blockRegs, fun a outside => ?_, rfl⟩,
    exec_ldMemVx_of_lt⟩
  refine (bytesStored_afterStore s _ _).2.1 a (outside.imp_right fun above => ?_)
  rw [State.length_blockRegs]
  exact above

/-! ### The load -/

theorem exec_ldVxMem_of_le {s : State} {x : Reg} (h : s.i.toNat + x.val ≤ 0xFFF) :
    exec (.ldVxMem x) s =
      .next (s.writeBlockRegs (Memory.readBytes s.mem (s.indexAddr 0) (x.val + 1))).advance := by
  have in_range : s.indexAddr 0 + (x.val + 1) ≤ 0x1000 := Nat.succ_le_succ h
  rw [exec_ldVxMem, State.loadBytes_ok (.inr in_range), State.orRaise_ok]

theorem exec_ldVxMem_of_lt {s : State} {x : Reg} (h : 0xFFF < s.i.toNat + x.val) :
    exec (.ldVxMem x) s = .next { s with fault := some (.memOutOfRange (max s.i.toNat 0x1000)) } := by
  have out_of_range : 0x1000 < s.indexAddr 0 + (x.val + 1) := Nat.succ_lt_succ h
  rw [exec_ldVxMem, State.loadBytes_error (Nat.succ_pos _) out_of_range, State.orRaise_error]
  rfl

/-- Settles O48: byte k of the block loaded goes to V[k], and the block ends at V[x]. -/
theorem blockOfRegistersIsLoaded : Obligations.BlockOfRegistersIsLoaded := by
  intro s x
  refine ⟨fun h => ⟨_, exec_ldVxMem_of_le h, fun r hr => ?inside, fun r hr => ?above, fun _ => rfl, rfl⟩,
    exec_ldVxMem_of_lt⟩
  case inside =>
    have inside : r.val < (Memory.readBytes s.mem (s.indexAddr 0) (x.val + 1)).length := by
      rw [Memory.length_readBytes]
      exact Nat.lt_succ_of_le hr
    rw [State.readV_advance, State.readV_writeBlockRegs, dif_pos inside, Memory.getElem_readBytes]
    rfl
  case above =>
    have outside : ¬r.val < (Memory.readBytes s.mem (s.indexAddr 0) (x.val + 1)).length := by
      rw [Memory.length_readBytes]
      exact Nat.not_lt.mpr hr
    rw [State.readV_advance, State.readV_writeBlockRegs, dif_neg outside]

/-! ### The fetch after a store -/

/-- Settles O49: the two bytes stored at I = PC + 2 are the two bytes at the PC of the next cycle. -/
theorem nextFetchSeesTheStore : Obligations.NextFetchSeesTheStore := by
  intro s t admitted hi index hpc h
  have two : (s.pc + 2).toNat = s.pc.toNat + 2 := State.toNat_pc_add (by omega) (by decide)
  have in_range : s.i.toNat + (1 : Reg).val ≤ 0xFFF := by
    rw [index, two]
    exact Nat.succ_le_succ (Nat.add_le_add_right hpc 2)
  have stored := step_of_exec admitted.1 admitted.2 hi (exec_ldMemVx_of_le in_range) admitted.2
  obtain rfl : _ = t := Host.Outcome.next.inj (stored.symm.trans h)
  have fetched := State.fetchWord_of_le (s := (s.afterStore (s.indexAddr 0) (s.blockRegs 1)).tick)
    (show (s.pc + 2).toNat ≤ 0xFFE by omega)
  have first := s.byteAt_afterStore_blockRegs (x := 1) (r := 0) (by decide)
  have second := s.byteAt_afterStore_blockRegs (x := 1) (r := 1) (by decide)
  rw [fetched, ← first, ← second, State.indexAddr, State.indexAddr, State.indexAddr, index]
  rfl

end Sys2Proof.Machine
end

section
/-! PROOFS of the statements about the draw Dxyn (45_display.md R176 to R179). -/

namespace Sys2Proof.Machine

/-! ### The draw executed -/

/-- The bytes of the sprite a draw of height `n` takes (R176). -/
def State.spriteBytes (s : State) (n : Nibble) : List Byte := Memory.readBytes s.mem (s.indexAddr 0) n.toNat

/-- The draw of a sprite on the picture of a state (R176). -/
def State.drawn (s : State) (x y : Reg) (n : Nibble) : Blit :=
  blitSprite (s.readV x) (s.readV y) (s.spriteBytes n) s.fb

/-- What a draw with its sprite in range leaves (R176). -/
def State.afterDraw (s : State) (x y : Reg) (n : Nibble) : State := (s.showBlit (s.drawn x y n)).advance

theorem exec_drwVxVyN_of_le {s : State} (x y : Reg) {n : Nibble}
    (h : n.toNat = 0 ∨ s.i.toNat + (n.toNat - 1) ≤ 0xFFF) : exec (.drwVxVyN x y n) s = .next (s.afterDraw x y n) := by
  have in_range : n.toNat = 0 ∨ s.indexAddr 0 + n.toNat ≤ 0x1000 := by
    rw [State.indexAddr]
    omega
  rw [exec_drwVxVyN, State.loadBytes_ok in_range, State.orRaise_ok]
  rfl

theorem exec_drwVxVyN_of_lt {s : State} (x y : Reg) {n : Nibble} (hn : 0 < n.toNat)
    (h : 0xFFF < s.i.toNat + (n.toNat - 1)) :
    exec (.drwVxVyN x y n) s = .next { s with fault := some (.memOutOfRange (max s.i.toNat 0x1000)) } := by
  have out_of_range : 0x1000 < s.indexAddr 0 + n.toNat := by
    rw [State.indexAddr]
    omega
  rw [exec_drwVxVyN, State.loadBytes_error hn out_of_range, State.orRaise_error]
  rfl

/-! ### Pixels and flag after a draw -/

/-- The pixels the loops of the draw cover are those under a sprite bit of 1 (R176 to R178). -/
theorem bytesCover_iff_spriteCovers (s : State) (x y : Reg) (n : Nibble) (row : Fin 32) (col : Fin 64) :
    BytesCover (s.readV x) (s.readV y) 0 (s.spriteBytes n) row col ↔ SpriteCovers s x y n row col := by
  have length : (s.spriteBytes n).length = n.toNat := Memory.length_readBytes ..
  have byte (r : Nat) (h : r < (s.spriteBytes n).length) : (s.spriteBytes n)[r] = s.byteAt (s.indexAddr r) :=
    Memory.getElem_readBytes _ _ _ _ h
  constructor
  · rintro ⟨r, hr, rfl, c, -, hc, bit, rfl⟩
    rw [byte, spriteBit] at bit
    exact ⟨r, c, length ▸ hr, by omega, by rw [Nat.zero_add]; rfl, rfl, bit⟩
  · rintro ⟨r, c, hr, hc, hrow, hcol, bit⟩
    have hr' : r < (s.spriteBytes n).length := length ▸ hr
    refine ⟨r, hr', Fin.ext ?_, c, Nat.zero_le c, by omega, ?_, Fin.ext hcol.symm⟩
    · rw [Nat.zero_add]; exact hrow.symm
    · rw [byte, spriteBit, bit]

theorem length_spriteBytes_le (s : State) (n : Nibble) : 0 + (s.spriteBytes n).length ≤ 16 := by
  have := n.isLt
  rw [State.spriteBytes, Memory.length_readBytes]
  omega

open Classical in
theorem State.pixel_afterDraw_of_covers {s : State} {x y : Reg} {n : Nibble} {row : Fin 32} {col : Fin 64}
    (h : SpriteCovers s x y n row col) : (s.afterDraw x y n).pixel row col = !s.pixel row col := by
  have flipped := pixelOf_blitRows (s.readV x) (s.readV y) row col 0 _ (length_spriteBytes_le s n) ⟨s.fb, false⟩
  rw [decide_eq_true ((bytesCover_iff_spriteCovers ..).mpr h), Bool.xor_true] at flipped
  exact flipped

open Classical in
theorem State.pixel_afterDraw_of_not_covers {s : State} {x y : Reg} {n : Nibble} {row : Fin 32} {col : Fin 64}
    (h : ¬SpriteCovers s x y n row col) : (s.afterDraw x y n).pixel row col = s.pixel row col := by
  have kept := pixelOf_blitRows (s.readV x) (s.readV y) row col 0 _ (length_spriteBytes_le s n) ⟨s.fb, false⟩
  rw [decide_eq_false (mt (bytesCover_iff_spriteCovers ..).mp h), Bool.xor_false] at kept
  exact kept

/-- A draw unset a lit pixel: its sprite covers a pixel that was lit before it (R179). -/
def Collides (s : State) (x y : Reg) (n : Nibble) : Prop :=
  ∃ row col, SpriteCovers s x y n row col ∧ s.pixel row col = true

theorem hit_drawn_iff (s : State) (x y : Reg) (n : Nibble) : (s.drawn x y n).hit = true ↔ Collides s x y n := by
  have hit := hit_blitRows (s.readV x) (s.readV y) 0 _ (length_spriteBytes_le s n) ⟨s.fb, false⟩
  simp only [bytesCover_iff_spriteCovers, Bool.false_eq_true, false_or] at hit
  exact hit

theorem State.readV_regF_afterDraw (s : State) (x y : Reg) (n : Nibble) :
    (s.afterDraw x y n).readV regF = flagByte (s.drawn x y n).hit := State.readV_writeV_same ..

theorem State.readV_regF_afterDraw_of_collides {s : State} {x y : Reg} {n : Nibble} (h : Collides s x y n) :
    (s.afterDraw x y n).readV regF = 0x01 := by
  rw [State.readV_regF_afterDraw, (hit_drawn_iff ..).mpr h]
  rfl

theorem State.readV_regF_afterDraw_of_not_collides {s : State} {x y : Reg} {n : Nibble} (h : ¬Collides s x y n) :
    (s.afterDraw x y n).readV regF = 0x00 := by
  rw [State.readV_regF_afterDraw, Bool.eq_false_iff.mpr (mt (hit_drawn_iff ..).mp h)]
  rfl

theorem State.readV_afterDraw_of_ne (s : State) (x y : Reg) (n : Nibble) {r : Reg} (h : r ≠ regF) :
    (s.afterDraw x y n).readV r = s.readV r := State.readV_writeV_other _ _ h

/-- Settles O51: the loops of the draw cover the pixels under the sprite's bits, flip each once and note a lit one. -/
theorem drawFlipsExactlyTheCoveredPixels : Obligations.DrawFlipsExactlyTheCoveredPixels := by
  intro s x y n
  refine ⟨exec_drwVxVyN_of_lt x y, fun h => ⟨_, exec_drwVxVyN_of_le x y h, ?_⟩⟩
  exact ⟨fun _ _ => State.pixel_afterDraw_of_covers, fun _ _ => State.pixel_afterDraw_of_not_covers,
    State.readV_regF_afterDraw_of_collides, State.readV_regF_afterDraw_of_not_collides,
    fun _ => s.readV_afterDraw_of_ne x y n, fun _ => rfl, rfl⟩

/-! ### Drawing twice -/

theorem framebuffer_ext {fb fb' : Framebuffer} (h : ∀ row col, pixelOf fb row col = pixelOf fb' row col) : fb = fb' :=
  Vector.ext fun row hrow => Vector.ext fun col hcol => h ⟨row, hrow⟩ ⟨col, hcol⟩

/-- The first draw moves neither the sprite nor, with both coordinates outside VF, its place. -/
theorem spriteCovers_afterDraw (s : State) {x y : Reg} (n : Nibble) (hx : x ≠ regF) (hy : y ≠ regF) (row : Fin 32)
    (col : Fin 64) : SpriteCovers (s.afterDraw x y n) x y n row col ↔ SpriteCovers s x y n row col := by
  unfold SpriteCovers
  rw [s.readV_afterDraw_of_ne x y n hx, s.readV_afterDraw_of_ne x y n hy]
  rfl

theorem fb_afterDraw_afterDraw (s : State) {x y : Reg} (n : Nibble) (hx : x ≠ regF) (hy : y ≠ regF) :
    ((s.afterDraw x y n).afterDraw x y n).fb = s.fb := by
  refine framebuffer_ext fun row col => ?_
  show ((s.afterDraw x y n).afterDraw x y n).pixel row col = s.pixel row col
  by_cases h : SpriteCovers s x y n row col
  · rw [State.pixel_afterDraw_of_covers ((spriteCovers_afterDraw s n hx hy row col).mpr h),
      State.pixel_afterDraw_of_covers h, Bool.not_not]
  · rw [State.pixel_afterDraw_of_not_covers (mt (spriteCovers_afterDraw s n hx hy row col).mp h),
      State.pixel_afterDraw_of_not_covers h]

/-- A draw that hit nothing lit every pixel it covers, so drawing again hits. -/
theorem collides_afterDraw {s : State} {x y : Reg} {n : Nibble} (hx : x ≠ regF) (hy : y ≠ regF)
    (missed : (s.afterDraw x y n).readV regF = 0x00) (covers : ∃ row col, SpriteCovers s x y n row col) :
    Collides (s.afterDraw x y n) x y n := by
  obtain ⟨row, col, h⟩ := covers
  have dark : s.pixel row col = false := by
    by_contra lit
    rw [State.readV_regF_afterDraw_of_collides ⟨row, col, h, Bool.eq_true_of_not_eq_false lit⟩] at missed
    exact absurd missed (by decide)
  refine ⟨row, col, (spriteCovers_afterDraw s n hx hy row col).mpr h, ?_⟩
  rw [State.pixel_afterDraw_of_covers h, dark, Bool.not_false]

/-- Settles O52: the second draw covers the pixels of the first and flips each of them back; where the first hit
nothing it left its pixels lit. -/
theorem drawingTwiceRestoresThePicture : Obligations.DrawingTwiceRestoresThePicture := by
  intro s t x y n _ hx hy h good
  by_cases in_range : n.toNat = 0 ∨ s.i.toNat + (n.toNat - 1) ≤ 0xFFF
  · obtain rfl : s.afterDraw x y n = t := Host.Outcome.next.inj ((exec_drwVxVyN_of_le x y in_range).symm.trans h)
    refine ⟨_, exec_drwVxVyN_of_le x y in_range, fb_afterDraw_afterDraw s n hx hy, fun missed covers => ?_⟩
    exact State.readV_regF_afterDraw_of_collides (collides_afterDraw hx hy missed covers)
  · rw [exec_drwVxVyN_of_lt x y (by omega) (by omega)] at h
    cases h
    cases good

end Sys2Proof.Machine
end

section
/-! PROOFS of the statements about the keyboard wait and the timers (46_keyboard_timers.md R187 to R190). -/

namespace Sys2Proof.Machine

/-- Settles O53: the nibbles decode by the table of the misc rows, and the two fields are written before PC goes on. -/
theorem keyWaitSetsTheFlagAndGoesOn : Obligations.KeyWaitSetsTheFlagAndGoesOn :=
  fun s x => ⟨rfl, exec_ldVxK x s⟩

/-- Settles O54: the execute stage moves the whole byte, and the tick that ends the cycle takes one from the timer just
written. -/
theorem timerMovesReadAndWrite : Obligations.TimerMovesReadAndWrite := by
  intro s x
  refine ⟨⟨_, exec_ldVxDt x s, oneRegisterWritten_writeV_advance s x s.dt⟩, exec_ldDtVx x s, exec_ldStVx x s,
    fun ⟨running, good⟩ hi => ⟨_, step_of_exec running good hi (exec_ldDtVx x s) good, ?_⟩,
    fun ⟨running, good⟩ hi => ⟨_, step_of_exec running good hi (exec_ldStVx x s) good, ?_⟩⟩
  · rw [State.tick_dt, toNat_tickTimer, State.advance_dt]
  · rw [State.tick_st, toNat_tickTimer, State.advance_st]

end Sys2Proof.Machine
end

section
/-! PROOFS of the statements about the host (47_host_interface.md): the latch (R212, R220), Reset (R201, R38), the start
of a program (R202, R203), the order of the lifecycle (R212), KeyResolve (R206) and a pausing host (R210). -/

namespace Sys2Proof.Machine

/-! ### Which actions are admitted -/

/-- With a fault latched the answer is its record (R36, R220). -/
theorem State.unlessFaulted_of_fault {s : State} {f : Fault} (h : s.fault = some f) (o : StepOutcome) :
    s.unlessFaulted o = .fault f := by
  rw [State.unlessFaulted, h]

theorem step_of_fault {s : State} {f : Fault} (h : s.fault = some f) : step s = .fault f :=
  step_of_cycleBar (by rw [State.cycleBar, h])

theorem step_of_not_running {s : State} (good : s.good) (h : s.phase ≠ .running) :
    step s = .refused .cycleNotRunning :=
  step_of_cycleBar (by rw [State.cycleBar, good]; exact if_neg h)

/-- Settles O9: Reset and the reads ask for nothing, and every other action asks for an empty latch first. -/
theorem latchedFaultStopsAllButResetAndReads : Obligations.LatchedFaultStopsAllButResetAndReads := by
  intro s f h
  refine ⟨rfl, rfl, rfl, fun a notReset notPicture notWait => ?_⟩
  cases a
  case reset => exact absurd rfl notReset
  case readFramebuffer => exact absurd rfl notPicture
  case readWait => exact absurd rfl notWait
  case cycle => exact step_of_fault h
  all_goals exact State.unlessFaulted_of_fault h _

/-! ### Reset and the start of a program -/

theorem State.readV_reset (r : Reg) : State.reset.readV r = 0 := Vector.getElem_replicate r.isLt

/-- Settles O55: the state Reset answers is the listed one. -/
theorem resetLeavesTheListedValues : Obligations.ResetLeavesTheListedValues := by
  refine fun s => ⟨_, rfl, rfl, rfl, rfl, rfl, State.readV_reset, rfl, rfl, rfl, ?stack, pixelOf_clear, ?keys, rfl, rfl,
    fun _ => rfl, rfl⟩
  case stack => exact fun k => Vector.getElem_replicate k.isLt
  case keys => exact fun k => Vector.getElem_replicate k.isLt

/-- Initialize in phase Idle (R202). -/
theorem act_initializeFont_of_idle {s : State} (good : s.good) (h : s.phase = .idle)
    (font : Vector Byte Config.fontLen) : act (.initializeFont font) s =
      .next { s with mem := Memory.writeBytes s.mem Config.fontBase font.toList, phase := .ready } := by
  rw [act, hostInitialize, State.unlessFaulted_of_good good, if_pos h]

theorem imageFits_iff (image : List Byte) : imageFits image = true ↔ image.length ≤ 3584 := decide_eq_true_iff

/-- LoadProgram in phase Ready of an image that fits (R203). -/
theorem act_loadProgram_of_ready {s : State} (good : s.good) (h : s.phase = .ready) {image : List Byte}
    (fits : image.length ≤ 3584) : act (.loadProgram image) s =
      .next { s with mem := Memory.writeBytes s.mem Config.progBase image, phase := .running } := by
  rw [act, hostLoadProgram, State.unlessFaulted_of_good good, if_pos h, if_pos ((imageFits_iff image).mpr fits)]

/-- LoadProgram in phase Ready of an image that does not fit (R203, R222). -/
theorem act_loadProgram_of_too_large {s : State} (good : s.good) (h : s.phase = .ready) {image : List Byte}
    (large : 3584 < image.length) :
    act (.loadProgram image) s = .next { s with fault := some (.imageTooLarge image.length) } := by
  have too_large : ¬imageFits image = true := mt (imageFits_iff image).mp (Nat.not_le.mpr large)
  rw [act, hostLoadProgram, State.unlessFaulted_of_good good, if_pos h, if_neg too_large, State.raise_eq]

/-- A list of actions goes on from the state its first action answers. -/
theorem actAll_cons {a : HostAction} {s t : State} (h : act a s = .next t) (rest : List HostAction) :
    actAll (a :: rest) s = actAll rest t := by
  rw [actAll, h]

/-- Memory after the start-up sequence: the font at 0x000, the image at 0x200, the rest as after reset (R62, R251). -/
def loadedMemory (font : Vector Byte 80) (image : List Byte) : List Host.Cell :=
  Memory.writeBytes (Memory.writeBytes State.reset.mem Config.fontBase font.toList) Config.progBase image

theorem read_loadedMemory_font (font : Vector Byte 80) (image : List Byte) (k : Nat) (h : k < 80) :
    Memory.read (loadedMemory font image) k = font[k] := by
  have inside : k < font.toList.length := font.length_toList.symm ▸ h
  have below : k < Config.progBase := h.trans (by decide)
  have written := Memory.read_writeBytes_inside State.reset.mem 0 font.toList k inside
  rw [Nat.zero_add] at written
  rw [loadedMemory, Memory.read_writeBytes_outside _ _ _ _ (.inl below), written, Vector.getElem_toList]

theorem read_loadedMemory_outside (font : Vector Byte 80) (image : List Byte) (a : Nat) (above : 80 ≤ a)
    (outside : a < 0x200 ∨ 0x200 + image.length ≤ a) : Memory.read (loadedMemory font image) a = 0 := by
  have above_font : Config.fontBase + font.toList.length ≤ a := by
    rw [Vector.length_toList]
    omega
  rw [loadedMemory, Memory.read_writeBytes_outside _ _ _ _ outside,
    Memory.read_writeBytes_outside _ _ _ _ (.inr above_font)]
  rfl

/-- Settles O56: Reset leaves Idle, Initialize then Ready and LoadProgram then Running, and the two block writes do not
overlap. -/
theorem startUpLoadsFontAndImage : Obligations.StartUpLoadsFontAndImage := by
  intro s font image fits
  refine ⟨{ State.reset with mem := loadedMemory font image, phase := .running, draws := s.draws }, ?run, ⟨rfl, rfl⟩,
    rfl, read_loadedMemory_font font image, ?image, read_loadedMemory_outside font image, rfl⟩
  case run =>
    rw [actAll_cons (show act .reset s = .next _ from rfl), actAll_cons (act_initializeFont_of_idle rfl rfl font),
      actAll_cons (act_loadProgram_of_ready rfl rfl fits)]
    rfl
  case image => exact Memory.read_writeBytes_inside _ 0x200 image

/-! ### The order of the lifecycle -/

/-- Settles O57: each action first asks for its phase, and the image's length is checked before a byte is copied. -/
theorem lifecycleRefusesAndFaults : Obligations.LifecycleRefusesAndFaults := by
  intro s font image good
  refine ⟨fun ready large => ⟨_, act_loadProgram_of_too_large good ready large, rfl, ?stopped⟩,
    fun notIdle => ?refuseInit, fun notReady => ?refuseLoad, step_of_not_running good⟩
  case stopped =>
    intro u h
    rw [step_of_fault rfl] at h
    cases h
  case refuseInit => rw [act, hostInitialize, State.unlessFaulted_of_good good, if_neg notIdle]
  case refuseLoad => rw [act, hostLoadProgram, State.unlessFaulted_of_good good, if_neg notReady]

/-! ### KeyResolve -/

/-- Settles O59: with a wait on in Running the key index goes to the waiting register; without, the action is
refused. -/
theorem keyResolveWritesTheWaitingRegister : Obligations.KeyResolveWritesTheWaitingRegister := by
  intro s k good
  have index_lt := k.isLt
  constructor
  · intro waiting running
    refine ⟨{ s.writeV s.keyReg (BitVec.ofNat 8 k.val) with waiting := false }, ?answer, ?written,
      fun r hr => State.readV_writeV_other s _ hr, rfl⟩
    case answer => rw [act, hostKeyResolve, State.unlessFaulted_of_good good, if_pos ⟨waiting, running⟩]
    case written =>
      have written : (s.writeV s.keyReg (BitVec.ofNat 8 k.val)).readV s.keyReg = BitVec.ofNat 8 k.val :=
        State.readV_writeV_same ..
      exact (congrArg BitVec.toNat written).trans (Nat.mod_eq_of_lt (by omega))
  · intro unready
    have refused : ¬(s.waiting = true ∧ s.phase = .running) := by
      rintro ⟨waiting, running⟩
      rcases unready with idle | stopped
      · exact absurd (idle.symm.trans waiting) Bool.false_ne_true
      · exact stopped running
    rw [act, hostKeyResolve, State.unlessFaulted_of_good good, if_neg refused]

/-! ### A pausing host -/

/-- While a wait is on, a pausing host strobes no cycle, and goes on pausing after an action that is admitted (R210). -/
theorem pausesOnWait_cons {a : HostAction} {rest : List HostAction} {s u : State} (hu : act a s = .next u)
    (waiting : s.waiting = true) (h : pausesOnWait (a :: rest) s = true) :
    a ≠ .cycle ∧ pausesOnWait rest u = true := by
  rw [pausesOnWait, hu, waiting, Bool.and_true, Bool.and_eq_true, Bool.not_eq_true', decide_eq_false_iff_not] at h
  exact h

/-- An action of a pausing host in a waiting core, other than Reset and KeyResolve, changes the latch alone. -/
theorem act_of_waiting {a : HostAction} {s u : State} (running : s.phase = .running) (notReset : a ≠ .reset)
    (notResolve : ∀ k, a ≠ .keyResolve k) (notCycle : a ≠ .cycle) (h : act a s = .next u) :
    u = { s with keys := u.keys } := by
  rcases act_cases h with ⟨ha, _⟩ | ⟨_, _, _, idle, _⟩ | ⟨_, _, _, ready, _⟩ | ⟨ha, _⟩ | ⟨ks, _, _, rfl⟩ |
    ⟨k, ha, _⟩ | ⟨_, rfl⟩
  · exact absurd ha notReset
  · rw [running] at idle; cases idle
  · rw [running] at ready; cases ready
  · exact absurd ha notCycle
  · rfl
  · exact absurd ha (notResolve k)
  · rfl

/-- Settles O60: along the list the core stays admitted and waiting, since each action changes the latch alone. -/
theorem pausingHostFreezesAWaitingCore : Obligations.PausingHostFreezesAWaitingCore := by
  intro actions
  induction actions with
  | nil => intro s t _ _ _ _ _ h; cases h; rfl
  | cons a rest ih =>
    intro s t admitted waiting notReset notResolve pauses h
    obtain ⟨u, hu, hrest⟩ := actAll_cons_next h
    obtain ⟨notCycle, pauses'⟩ := pausesOnWait_cons hu waiting pauses
    have frozen : u = { s with keys := u.keys } :=
      act_of_waiting admitted.1 (List.ne_of_not_mem_cons notReset).symm
        (fun k => (List.ne_of_not_mem_cons (notResolve k)).symm) notCycle hu
    have later := ih u t (by rw [frozen]; exact admitted) (by rw [frozen]; exact waiting)
      (List.not_mem_of_not_mem_cons notReset) (fun k => List.not_mem_of_not_mem_cons (notResolve k)) pauses' hrest
    rw [frozen] at later
    exact later

end Sys2Proof.Machine
end
